-- ==== Sys2Proof/Word.lean ====
section
/-! DEFINITION. The words of the FAU's ports (00_scope.md R10, R13, R14; 30_encoding.md R70, R72). -/

namespace Sys2Proof

/-- `Word256` of R14: an unsigned 256-bit integer, bit `i` of weight `2^i` (R10, R53). -/
abbrev Word := BitVec 256

/-- The 514-bit command word `C` of R70. -/
abbrev CommandWord := BitVec 514

/-- The 257-bit response word `Q` of R72. -/
abbrev ResponseWord := BitVec 257

end Sys2Proof
end

