-- ==== Sys2Proof/Machine/Operands.lean ====
section
/-! DEFINITION. The modulus, the reading of an operand as a residue and the 32-byte view of a word
(00_scope.md R11, R15; 20_memory.md R53, R54; 30_encoding.md R74). -/

namespace Sys2Proof.Machine

/-- The field prime, a constant of the datapath (R2, R11, R21). -/
def P : Nat := 0xFFFFFFFFFFFFFFFFFFFFFFFFFFFFFFFFFFFFFFFFFFFFFFFFFFFFFFFEFFFFFC2F

/-- `canon(v) = v mod P` (R15): how every operation reads an operand, canonical or not (R74). -/
def canon (v : Word) : Nat := v.toNat % P

/-- The word of `z mod P`, the least non-negative residue, for an exact integer `z` of either sign (R15). -/
def residueWord (z : Int) : Word := BitVec.ofNat 256 (z % (P : Int)).toNat

/-- The byte `B[j] = v[255 - 8*j : 248 - 8*j]` of the host's 32-byte view (R54). -/
def byteOf (v : Word) (j : Nat) : BitVec 8 := v.extractLsb' (248 - 8 * j) 8

/-- The host's 32-byte view of a word, `B[0]` first and most significant (R54). -/
def byteView (v : Word) : List (BitVec 8) := (List.range 32).map (byteOf v)

/-- The number of a big-endian byte string: the first byte is the most significant (R54). -/
def bytesNumber (bs : List (BitVec 8)) : Nat := bs.foldl (fun n x => 256 * n + x.toNat) 0

/-- The word of a 32-byte view (R54); none if the view has another length. -/
def wordOfBytes (bs : List (BitVec 8)) : Option Word :=
  if bs.length = 32 then some (BitVec.ofNat 256 (bytesNumber bs)) else none

end Sys2Proof.Machine
end

