-- ==== Sys2Proof/Syntax.lean ====
section
/-! DEFINITION. The four commands of the FAU (00_scope.md R4; 30_encoding.md R71, R78), operands by value (R22). -/

namespace Sys2Proof

/-- One constructor per row of the opcode table. The operands are the 256-bit words of the command, any value being legal (R74). -/
inductive Instr where
  /-- FADD `a, b` (R90), op `00`. -/
  | fadd (a b : Word)
  /-- FSUB `a, b` (R95), op `01`; `a` is the minuend. -/
  | fsub (a b : Word)
  /-- FMUL `a, b` (R110), op `10`. -/
  | fmul (a b : Word)
  /-- FINV `a` (R130), op `11`; the word's `b` field is discarded (R75, R78). -/
  | finv (a : Word)
  deriving DecidableEq, Repr

end Sys2Proof
end

