-- ==== Sys2Proof/Decode.lean ====
section
/-! DEFINITION. The command word, its decoder and its encoder (30_encoding.md R70, R71, R74 to R78, R82). -/

namespace Sys2Proof

/-- The field `op = C[513:512]` (R70). -/
def opField (c : CommandWord) : BitVec 2 := c.extractLsb' 512 2

/-- The field `a = C[511:256]` (R70). -/
def aField (c : CommandWord) : Word := c.extractLsb' 256 256

/-- The field `b = C[255:0]` (R70). -/
def bField (c : CommandWord) : Word := c.extractLsb' 0 256

/-- The command word of the three fields, `op` most significant (R70). -/
def commandWord (op : BitVec 2) (a b : Word) : CommandWord := op ++ a ++ b

/-- The decoder of R78. It is total: each of the `2^514` words is one of the four operations (R76), and FINV discards `b` (R75). -/
def decode (c : CommandWord) : Instr :=
  if opField c = 0b00#2 then .fadd (aField c) (bField c)
  else if opField c = 0b01#2 then .fsub (aField c) (bField c)
  else if opField c = 0b10#2 then .fmul (aField c) (bField c)
  else .finv (aField c)

/-- The operation code of a command (R71). -/
def opcodeOf : Instr → BitVec 2
  | .fadd _ _ => 0b00#2
  | .fsub _ _ => 0b01#2
  | .fmul _ _ => 0b10#2
  | .finv _ => 0b11#2

/-- The operand `a` of a command. -/
def operandA : Instr → Word
  | .fadd a _ => a
  | .fsub a _ => a
  | .fmul a _ => a
  | .finv a => a

/-- The operand `b` of a command; the assembler writes 0 for FINV (R75, R79). -/
def operandB : Instr → Word
  | .fadd _ b => b
  | .fsub _ b => b
  | .fmul _ b => b
  | .finv _ => 0

/-- The encoder: the command word of a command (R70, R71, R79). -/
def encode (i : Instr) : CommandWord :=
  commandWord (opcodeOf i) (operandA i) (operandB i)

/-- Why a number is no command. -/
inductive DecodeError where
  /-- The number needs more than 514 bits; every command is 514 bits (R77). Safe: no such thing reaches the ports. -/
  | notACommandWord (c : Nat)
  deriving DecidableEq, Repr

/-- Decoding a number: rejected by name if it is no 514-bit word (R77), else the decoder of R78. -/
def decodeNumber (c : Nat) : Except DecodeError Instr :=
  if c < 2 ^ 514 then .ok (decode (BitVec.ofNat 514 c)) else .error (.notACommandWord c)

/-- The instruction read from `nbits` bits of value `w`, every bit above them being 0 (log 9). -/
def decodeTableWord (nbits w : Nat) : Option Instr :=
  (decodeNumber (w % 2 ^ nbits)).toOption

end Sys2Proof
end

