-- ==== Sys2Proof/Config.lean ====
section
/-! DEFINITION. The values the spec leaves open, as constants without a body: nothing can be proved about which value they give. -/

namespace Sys2Proof

/-- The open parameter LATENCY (00_scope.md R12; 70_reset_and_hazards.md R179) of one command, less its least value 1:
a fresh draw for each command (the first argument counts draws), which may depend on the operation and the operands (log 2). -/
opaque Config.latencyDraw : Nat → BitVec 2 → Word → Word → Nat

/-- The `n`-th free word: what RES holds after ZeroInverse ("RES <- any", 10_state.md R31) and what the registers hold
before the first reset (R34). The argument is the State's counter of draws (log 3, log 5). -/
opaque Config.freeWord : Nat → Word

end Sys2Proof
end

