-- ==== Sys2Proof/Machine/HostProgram.lean ====
section
/-! DEFINITION. The lines of a host program (30_encoding.md R79, R81). They belong to the host, not to the FAU, and have no encoding. -/

namespace Sys2Proof.Machine

/-- A source of a line (R79): a literal numeral, which must be at most `2^256 - 1`, or the temporary `tN`. -/
inductive Source where
  | lit (v : Nat)
  | temp (n : Nat)
  deriving DecidableEq, Repr

/-- A line of a host program: `tN = MNEMONIC src1, src2` or `tN = FINV src1` (R79), or host control (R81).
A label is its name's characters. -/
inductive HostLine where
  | fadd (dest : Nat) (x y : Source)
  | fsub (dest : Nat) (x y : Source)
  | fmul (dest : Nat) (x y : Source)
  | finv (dest : Nat) (x : Source)
  /-- `BRERR label`: jumps if the last consumed response had `err = 1`. -/
  | brerr (label : List Char)
  /-- `BRZ tN, label`: jumps if `tN = 0`. -/
  | brz (n : Nat) (label : List Char)
  /-- `BRNZ tN, label`: jumps if `tN ≠ 0`. -/
  | brnz (n : Nat) (label : List Char)
  /-- `HALT` ends the program. -/
  | halt
  /-- `name:` at the start of a line. -/
  | label (l : List Char)
  deriving DecidableEq, Repr

end Sys2Proof.Machine
end

