-- ==== Sys2Proof/Machine/State.lean ====
section
/-! DEFINITION. The state of the two agents (00_scope.md R19): the FAU's registers (10_state.md R20) and the host's part. -/

namespace Sys2Proof.Machine

/-- The values of STATE (10_state.md R20, R31, R34; 90_conflicts.md C4). Their bit encoding is not architectural (D27). -/
inductive Phase where
  /-- Before the first reset (R34). -/
  | unreset
  | idle
  | busy
  | resp
  deriving DecidableEq, Repr

/-- The outcome of `exec(op, a, b)` (00_scope.md R17). -/
inductive ExecOutcome where
  /-- `Ok(r)`. -/
  | ok (r : Word)
  /-- `Err(ZeroInverse)` (60_exceptions.md R150). -/
  | zeroInverse
  deriving DecidableEq, Repr

/-- A command as the host presents it: the three fields of the command word (R70). -/
structure Command where
  op : BitVec 2
  a : Word
  b : Word
  deriving DecidableEq, Repr

/-- A response as the wires carry it: `rsp_err` and `rsp_data` (R72). While `err` is true `data` has no meaning (R50). -/
structure Response where
  err : Bool
  data : Word
  deriving DecidableEq, Repr

/-- One cycle of the host: the levels of the input ports just before the next rising edge (20_memory.md R41, R42), and what
the host does with the response wires in that cycle (R50, R175). -/
structure Drive where
  rst : Bool
  cmdValid : Bool
  cmdOp : BitVec 2
  cmdA : Word
  cmdB : Word
  rspReady : Bool
  /-- The host uses the value of `rsp_err` in this cycle. -/
  readErr : Bool
  /-- The host uses the value of `rsp_data` in this cycle. -/
  readData : Bool
  /-- The host defines the temporary of this number from `rsp_data` in this cycle (R79), consuming the response or not (DESIGN CHOICE, log 20). -/
  define : Option Nat
  deriving DecidableEq, Repr

/-- A cycle in which the host does nothing. -/
def Drive.idle : Drive :=
  { rst := false, cmdValid := false, cmdOp := 0, cmdA := 0, cmdB := 0, rspReady := false,
    readErr := false, readData := false, define := none }

/-- A cycle in which the host only holds `rsp_ready = 1` (R51). -/
def Drive.ready : Drive := { Drive.idle with rspReady := true }

/-- Why the machine stops with a fault. All are faults of the HOST agent's own steps, modelling outcomes and not FAU behaviour
(60_exceptions.md R152); each is safe where a run reaches the offending step. No command's meaning raises one. -/
inductive Fault where
  /-- Raised by `edge`: the host uses `rsp_err` while `rsp_valid = 0` (R50). Safe. -/
  | errWithoutResponse
  /-- Raised by `edge`: the host uses `rsp_data` while `rsp_valid = 0` (R50, R152). Safe. -/
  | dataWithoutResponse
  /-- Raised by `edge`: the host uses `rsp_data` while `rsp_err = 1` (R50, R152). Safe. -/
  | dataOfErroredResponse
  /-- Raised by `edge`: the host defines a temporary from an errored response (R79, R152). Safe. -/
  | temporaryFromErroredResponse
  /-- Raised by `edge`: the host defines the temporary `n` a second time (R79 "A `tN` is defined once"). Safe. -/
  | temporaryDefinedTwice (n : Nat)
  /-- Raised by the sequencer: a line reads the temporary `n`, which nothing has defined (R79, R152). Safe. -/
  | temporaryUndefined (n : Nat)
  /-- Raised by the sequencer: a literal above `2^256 - 1` (R79). Safe. -/
  | literalTooWide (v : Nat)
  /-- Raised by the sequencer: a jump to a label no line carries (R81). Safe. -/
  | labelMissing (l : List Char)
  deriving DecidableEq, Repr

/-- Why a step is given no meaning. -/
inductive Refusal where
  /-- Raised by `exec`'s arm of an instruction without a meaning; no arm answers it now. Safe. -/
  | notModelled (mnemonic : String)
  /-- Raised by `edge`: `cmd_valid = 1` before the first reset (10_state.md R34; 20_memory.md R61). Safe. -/
  | issueBeforeReset
  /-- Raised by `edge`: the host takes or looks at a response before the first reset, when `rsp_valid` has no meaning (R34). Safe. -/
  | responseBeforeReset
  deriving DecidableEq, Repr

/-- The whole machine: the FAU's six registers (R20), its hidden progress (R29) with the model's counter of free values, and the host. -/
structure State where
  /-- STATE -/
  phase : Phase
  /-- OPC -/
  opc : BitVec 2
  /-- OPA -/
  opa : Word
  /-- OPB -/
  opb : Word
  /-- RES -/
  res : Word
  /-- ERR -/
  err : Bool
  /-- How many edges of the latency of the command in flight remain (R12, R29, R31). -/
  latencyLeft : Nat
  /-- How many free values have been drawn (the model's own). -/
  draws : Nat
  /-- The host's coming cycles, the next one first. -/
  script : List Drive
  /-- The commands taken since the last reset edge, oldest first (R57). -/
  issued : List Command
  /-- The responses consumed since the last reset edge, oldest first (R48, R57). -/
  delivered : List Response
  /-- The `err` bit of the response consumed last (R81). -/
  lastErr : Bool
  /-- The host program the sequencer runs (R79, R81). -/
  program : List HostLine
  /-- The sequencer's position in the program (R24). -/
  line : Nat
  /-- The temporary that the command the sequencer has issued will define. -/
  awaiting : Option Nat
  /-- The temporaries defined so far, numbers strictly rising (R79: "host storage, not FAU state"). -/
  temps : List (Nat × Word)
  deriving DecidableEq, Repr

/-- The machine right after a reset (10_state.md R33): STATE is IDLE. The registers R33 leaves unspecified are 0 here
(DESIGN CHOICE, log 4), the host has no cycle planned, no program, and has issued and received nothing. -/
def State.reset : State :=
  { phase := .idle, opc := 0, opa := 0, opb := 0, res := 0, err := false, latencyLeft := 0, draws := 0,
    script := [], issued := [], delivered := [], lastErr := false, program := [], line := 0, awaiting := none, temps := [] }

end Sys2Proof.Machine
end

