-- ==== Sys2Proof/Machine/Flags.lean ====
section
/-! DEFINITION. The one status bit, ERR (10_state.md R25; 60_exceptions.md R150). The FAU has no condition codes (R25). -/

namespace Sys2Proof.Machine

/-- What a completion writes into ERR: 1 for ZeroInverse, 0 otherwise (R25, R31, R150). -/
def errFlag : ExecOutcome → Bool
  | .ok _ => false
  | .zeroInverse => true

end Sys2Proof.Machine
end

