-- ==== Sys2Proof/Machine/Ops.lean ====
section
/-! DEFINITION. The named operations on the state: the output wires (20_memory.md R43), the response word (30_encoding.md R72), the edges of
the state machine (10_state.md R31, R33, R34), completing a command, raising ZeroInverse, and the host's temporaries. -/

namespace Sys2Proof.Machine

/-! ## The outputs (R26, R43) -/

/-- `cmd_ready = (STATE = IDLE) and (rst = 0)` (R43). -/
def cmdReady (rst : Bool) (s : State) : Bool := decide (s.phase = .idle) && !rst

/-- `rsp_valid = (STATE = RESP) and (rst = 0)` (R43). -/
def rspValid (rst : Bool) (s : State) : Bool := decide (s.phase = .resp) && !rst

/-- The response wires `rsp_err = ERR`, `rsp_data = RES` (R43); what they mean is R50's concern. -/
def responseWires (s : State) : Response := { err := s.err, data := s.res }

/-- The response word `Q = {rsp_err, rsp_data}`: `Q[256]` is `err`, `Q[255:0]` is `r` (R72). -/
def responseWord (q : Response) : ResponseWord := BitVec.ofBool q.err ++ q.data

/-- The outcome a response reports: the data of an errored response has no meaning (R50, R72). -/
def responseOutcome (q : Response) : ExecOutcome := if q.err then .zeroInverse else .ok q.data

/-! ## The command in flight -/

/-- The command held in OPC, OPA and OPB (R46). -/
def latched (s : State) : Command := { op := s.opc, a := s.opa, b := s.opb }

/-- The 514-bit word of a command (R70). -/
def wordOfCommand (c : Command) : CommandWord := commandWord c.op c.a c.b

/-- LATENCY of the command drawn for at count `n`: any number of cycles, at least 1 (R12, R179). -/
def latency (n : Nat) (c : Command) : Nat := Config.latencyDraw n c.op c.a c.b + 1

/-- At this edge "the command's LATENCY has elapsed" (R31). -/
def latencyElapsed (s : State) : Bool := decide (s.latencyLeft ≤ 1)

/-! ## The edges of the state machine -/

/-- The issue edge (R31, R44, R46): the command is latched and its latency drawn. -/
def issue (c : Command) (s : State) : State :=
  { s with phase := .busy, opc := c.op, opa := c.a, opb := c.b, latencyLeft := latency s.draws c,
           draws := s.draws + 1, issued := s.issued ++ [c] }

/-- An edge in BUSY before the latency has elapsed: nothing architectural changes (R31). -/
def waitEdge (s : State) : State := { s with latencyLeft := s.latencyLeft - 1 }

/-- `raise ZeroInverse()` (60_exceptions.md R150, R151, R156): the completion with ERR = 1 and RES any value (R31); nothing is
saved, no mode changes and control goes nowhere. -/
def raiseZeroInverse (s : State) : State :=
  { s with phase := .resp, res := Config.freeWord s.draws, err := errFlag .zeroInverse, draws := s.draws + 1 }

/-- A completion with `Ok(r)` (R31). -/
def completeOk (r : Word) (s : State) : State :=
  { s with phase := .resp, res := r, err := errFlag (.ok r) }

/-- The completion edge's register writes for an outcome (R31). -/
def complete (o : ExecOutcome) (s : State) : State :=
  match o with
  | .ok r => completeOk r s
  | .zeroInverse => raiseZeroInverse s

/-- The consume edge (R31, R48): the host receives the response word as it stood, the FAU returns to IDLE. It is also the only
return from an error (R157). -/
def consume (s : State) : State :=
  { s with phase := .idle, delivered := s.delivered ++ [responseWires s], lastErr := s.err }

/-- A reset edge (R33): STATE is IDLE and no other register is written. The command in flight and the pending response are gone
(R172), so the host's records of transfers since a reset begin again and a sequencer that awaited a response must issue its line again. -/
def resetEdge (s : State) : State :=
  { s with phase := .idle, issued := [], delivered := [], awaiting := none }

/-- Every register holds some unspecified value (R34). -/
def scramble (s : State) : State :=
  { s with opc := (Config.freeWord s.draws).setWidth 2, opa := Config.freeWord (s.draws + 1), opb := Config.freeWord (s.draws + 2),
           res := Config.freeWord (s.draws + 3), err := (Config.freeWord (s.draws + 4)).getLsbD 0, draws := s.draws + 5 }

/-- The machine after power-up, before the first reset (R34, R163). -/
def powerUp : State := scramble { State.reset with phase := .unreset }

/-! ## The host's temporaries (R79) -/

/-- The value of the temporary `n`, if it is defined. -/
def lookupTemp (n : Nat) : List (Nat × Word) → Option Word
  | [] => none
  | (k, v) :: ts => if k = n then some v else lookupTemp n ts

/-- Define the temporary `n`, keeping the numbers strictly rising. -/
def insertTemp (n : Nat) (v : Word) : List (Nat × Word) → List (Nat × Word)
  | [] => [(n, v)]
  | (k, w) :: ts =>
    if n < k then (n, v) :: (k, w) :: ts
    else if n = k then (n, v) :: ts
    else (k, w) :: insertTemp n v ts

/-- The canonical form of the temporaries: numbers strictly rising. -/
abbrev tempsCanonical (ts : List (Nat × Word)) : Prop := (ts.map Prod.fst).Pairwise (· < ·)

/-- The host stores `rsp_data` as the temporary its cycle names (R79). R79 and R174 speak of the `rsp_data` the host consumed and R175 lets
it use any valid one: a scripted cycle may store the data of a response it does not consume, and the temporary stays defined if a
reset then discards that response (DESIGN CHOICE, log 20). The sequencer stores only in a cycle that consumes. -/
def capture (d : Drive) (s : State) : State :=
  match d.define with
  | none => s
  | some n => { s with temps := insertTemp n s.res s.temps }

end Sys2Proof.Machine
end

