-- ==== Sys2Proof/Machine/AddSub.lean ====
section
/-! DEFINITION. FADD and FSUB (40_add_sub.md R90 to R98). -/

namespace Sys2Proof.Machine

/-- `exec(FADD, a, b)` of R90: the exact sum of the residues, reduced modulo P. -/
def faddOutcome (a b : Word) : ExecOutcome := .ok (residueWord ((canon a : Int) + (canon b : Int)))

/-- `exec(FSUB, a, b)` of R95: the exact signed difference of the residues, reduced modulo P; `a` is the minuend. -/
def fsubOutcome (a b : Word) : ExecOutcome := .ok (residueWord ((canon a : Int) - (canon b : Int)))

/-- FADD at its completion edge (R31, R90). -/
def execFadd (a b : Word) (s : State) : Host.Outcome State Fault Refusal := .next (complete (faddOutcome a b) s)

/-- FSUB at its completion edge (R31, R95). -/
def execFsub (a b : Word) (s : State) : Host.Outcome State Fault Refusal := .next (complete (fsubOutcome a b) s)

end Sys2Proof.Machine
end

