-- ==== Sys2Proof/Machine/Inverse.lean ====
section
/-! DEFINITION. FINV (42_inverse.md R130 to R136). -/

namespace Sys2Proof.Machine

/-- `x ^ e mod m` by binary exponentiation, for an exponent of at most `k` bits (R130 fixes the value, R134 leaves the method free). -/
def powMod (m : Nat) : Nat → Nat → Nat → Nat
  | 0, _, _ => 1 % m
  | k + 1, x, e =>
    if e % 2 = 1 then x * powMod m k (x * x % m) (e / 2) % m else powMod m k (x * x % m) (e / 2)

/-- `exec(FINV, a, b)` of R130: ZeroInverse if `canon(a) = 0` (R131), else `canon(a) ^ (P - 2) mod P`. The exponent has 256 bits (R135). -/
def finvOutcome (a : Word) : ExecOutcome :=
  if canon a = 0 then .zeroInverse else .ok (BitVec.ofNat 256 (powMod P 256 (canon a) (P - 2)))

/-- FINV at its completion edge (R31, R130, R131); the command's `b` takes no part (R75). -/
def execFinv (a : Word) (s : State) : Host.Outcome State Fault Refusal := .next (complete (finvOutcome a) s)

end Sys2Proof.Machine
end

