-- ==== Sys2Proof/Machine/Mul.lean ====
section
/-! DEFINITION. FMUL (41_mul.md R110 to R114). -/

namespace Sys2Proof.Machine

/-- `exec(FMUL, a, b)` of R110: the exact product of the residues, reduced modulo P. -/
def fmulOutcome (a b : Word) : ExecOutcome := .ok (residueWord ((canon a : Int) * (canon b : Int)))

/-- FMUL at its completion edge (R31, R110). -/
def execFmul (a b : Word) (s : State) : Host.Outcome State Fault Refusal := .next (complete (fmulOutcome a b) s)

end Sys2Proof.Machine
end

