-- ==== Sys2Proof/Machine/Edge.lean ====
section
/-! DEFINITION. One rising edge of `clk` under one cycle of the host (10_state.md R31, R33, R34; 20_memory.md R42 to R51; 60_exceptions.md R152). -/

namespace Sys2Proof.Machine

/-- The host uses one of the response wires in this cycle. -/
def usesResponse (d : Drive) : Bool := d.readErr || d.readData || d.define.isSome

/-- The fault of the host's use of the response wires, if there is one (R50, R79, R152, R175). The wires count as they stand before the edge (R42).
Defining a temporary in a cycle that does not consume the response is no fault, since R152 lists none for it (DESIGN CHOICE, log 20). -/
def readFault (d : Drive) (s : State) : Option Fault :=
  if d.readErr && !rspValid d.rst s then some .errWithoutResponse
  else if (d.readData || d.define.isSome) && !rspValid d.rst s then some .dataWithoutResponse
  else if d.define.isSome && s.err then some .temporaryFromErroredResponse
  else if d.readData && s.err then some .dataOfErroredResponse
  else match d.define with
    | none => none
    | some n => if (lookupTemp n s.temps).isSome then some (.temporaryDefinedTwice n) else none

/-- The FAU's state machine at a rising edge (R31), reset having priority (R33), and every host step but reset refused before
the first reset (R34). In BUSY, once the latency has elapsed, the latched command has its effect. -/
def clock (d : Drive) (s : State) : Host.Outcome State Fault Refusal :=
  if d.rst then .next (resetEdge s)
  else match s.phase with
    | .unreset =>
      if d.cmdValid then .refused .issueBeforeReset
      else if d.rspReady then .refused .responseBeforeReset
      else .next (scramble s)
    | .idle => .next (if d.cmdValid then issue { op := d.cmdOp, a := d.cmdA, b := d.cmdB } s else s)
    | .busy =>
      if latencyElapsed s then exec (decode (wordOfCommand (latched s))) s
      else .next (waitEdge s)
    | .resp => .next (if d.rspReady then consume s else s)

/-- One rising edge with the host's part of the cycle before it: its uses of the response wires, then the edge itself. -/
def edge (d : Drive) (s : State) : Host.Outcome State Fault Refusal :=
  if usesResponse d && decide (s.phase = .unreset) then .refused .responseBeforeReset
  else match readFault d s with
    | some f => .fault f
    | none => clock d (capture d s)

end Sys2Proof.Machine
end

