-- ==== Sys2Proof/Machine/Sequencer.lean ====
section
/-! DEFINITION. The host's sequencer: which cycle it drives next when it runs a host program (10_state.md R24; 30_encoding.md R79, R81;
70_reset_and_hazards.md R174). It holds `rsp_ready = 1` throughout, as 95_test_vectors.md section 3 has it, and a control line takes it one cycle (log 11). -/

namespace Sys2Proof.Machine

/-- What the sequencer does in a cycle: it drives the ports and moves on, or it stops with a fault of the program. -/
inductive Plan where
  | drive (d : Drive) (s : State)
  | stop (f : Fault)
  deriving DecidableEq, Repr

/-- The value of a source (R79). -/
def sourceValue (ts : List (Nat × Word)) : Source → Except Fault Word
  | .lit v => if v < 2 ^ 256 then .ok (BitVec.ofNat 256 v) else .error (.literalTooWide v)
  | .temp n => match lookupTemp n ts with
    | some v => .ok v
    | none => .error (.temporaryUndefined n)

/-- The command of two sources (R79: "A line assembles to one command word"). -/
def assemble2 (mk : Word → Word → Instr) (ts : List (Nat × Word)) (x y : Source) : Except Fault Instr :=
  match sourceValue ts x with
  | .error f => .error f
  | .ok a => match sourceValue ts y with
    | .error f => .error f
    | .ok b => .ok (mk a b)

/-- The command of one source: FINV (R79). -/
def assemble1 (mk : Word → Instr) (ts : List (Nat × Word)) (x : Source) : Except Fault Instr :=
  match sourceValue ts x with
  | .error f => .error f
  | .ok a => .ok (mk a)

/-- The line a label stands on, counted from `k` (R81). R81 is silent on a label that two lines carry: the first of them counts
(DESIGN CHOICE, log 21). -/
def labelAt (l : List Char) : Nat → List HostLine → Option Nat
  | _, [] => none
  | k, .label m :: p => if m = l then some k else labelAt l (k + 1) p
  | k, _ :: p => labelAt l (k + 1) p

/-- On to the next line. -/
def nextLine (s : State) : Plan := .drive Drive.ready { s with line := s.line + 1 }

/-- A taken jump (R81), to the first line with the label (DESIGN CHOICE, log 21); without such a line the program stops (DEDUCED, log 12). -/
def jumpTo (l : List Char) (s : State) : Plan :=
  match labelAt l 0 s.program with
  | some k => .drive Drive.ready { s with line := k }
  | none => .stop (.labelMissing l)

/-- A cycle that presents a command; if the FAU is ready it is issued at the coming edge (R44). -/
def presentDrive (i : Instr) : Drive :=
  { Drive.ready with cmdValid := true, cmdOp := opcodeOf i, cmdA := operandA i, cmdB := operandB i }

/-- Present the assembled command of a line that defines `n`. -/
def present (n : Nat) (c : Except Fault Instr) (s : State) : Plan :=
  match c with
  | .error f => .stop f
  | .ok i => .drive (presentDrive i) (if cmdReady false s then { s with awaiting := some n } else s)

/-- One line of the program (R79, R81). -/
def runLine (s : State) : HostLine → Plan
  | .fadd n x y => present n (assemble2 Instr.fadd s.temps x y) s
  | .fsub n x y => present n (assemble2 Instr.fsub s.temps x y) s
  | .fmul n x y => present n (assemble2 Instr.fmul s.temps x y) s
  | .finv n x => present n (assemble1 Instr.finv s.temps x) s
  | .brerr l => if s.lastErr then jumpTo l s else nextLine s
  | .brz n l => match lookupTemp n s.temps with
    | none => .stop (.temporaryUndefined n)
    | some v => if v = 0 then jumpTo l s else nextLine s
  | .brnz n l => match lookupTemp n s.temps with
    | none => .stop (.temporaryUndefined n)
    | some v => if v = 0 then nextLine s else jumpTo l s
  | .halt => .drive Drive.ready s
  | .label _ => nextLine s

/-- The cycle in which the awaited response is consumed: the host looks at `rsp_err` and defines the temporary only if it is 0 (R79, R176). -/
def takeDrive (n : Nat) (s : State) : Drive :=
  { Drive.ready with readErr := true, define := if s.err then none else some n }

/-- What the host does with no scripted cycle left: without a program nothing, else what its sequencer does. A command is issued
only after the response to the one before has been consumed (R174). -/
def plan (s : State) : Plan :=
  match s.awaiting with
  | some n =>
    if rspValid false s then .drive (takeDrive n s) { s with line := s.line + 1, awaiting := none }
    else .drive Drive.ready s
  | none => match s.program[s.line]? with
    | some l => runLine s l
    | none => .drive (if s.program.isEmpty then Drive.idle else Drive.ready) s

end Sys2Proof.Machine
end

