-- ==== Sys2Proof/Machine/Step.lean ====
section
/-! DEFINITION. The step: one rising edge of `clk`, with the host's next scripted cycle, or its sequencer's when no scripted cycle is left. -/

namespace Sys2Proof.Machine

/-- One rising edge of `clk` (20_memory.md R42; 10_state.md R31). -/
def step (s : State) : Host.Outcome State Fault Refusal :=
  match s.script with
  | d :: ds => edge d { s with script := ds }
  | [] => match plan s with
    | .drive d s' => edge d s'
    | .stop f => .fault f

/-- `s` with the command word `w` as the command in flight and its latency elapsing at the coming edge, in a cycle in which
the host does nothing: the very next step executes it (log 8). -/
def State.withFetchWord (s : State) (nbits w : Nat) : State :=
  { s with phase := .busy, opc := opField (BitVec.ofNat 514 (w % 2 ^ nbits)), opa := aField (BitVec.ofNat 514 (w % 2 ^ nbits)),
           opb := bField (BitVec.ofNat 514 (w % 2 ^ nbits)), latencyLeft := 1, script := Drive.idle :: s.script }

end Sys2Proof.Machine
end

