-- ==== Sys2Proof/Machine/Outcome.lean ====
section
/-! DEFINITION. The pure function `exec(op, a, b)` of 00_scope.md R17, apart from any state. -/

namespace Sys2Proof.Machine

/-- The outcome of a command (R17). -/
def outcomeOf : Instr → ExecOutcome
  | .fadd a b => faddOutcome a b
  | .fsub a b => fsubOutcome a b
  | .fmul a b => fmulOutcome a b
  | .finv a => finvOutcome a

/-- `exec(op, a, b)` on the fields of a command word (R17, R78). -/
def commandOutcome (c : Command) : ExecOutcome := outcomeOf (decode (wordOfCommand c))

end Sys2Proof.Machine
end

