-- ==== Sys2Proof/Machine/Abstract.lean ====
section
/-! DEFINITION. The machine without time: the labelled transition system of 10_state.md R32, and how an edge maps onto it. -/

namespace Sys2Proof.Machine

/-- `Unreset | Idle | Busy(op, a, b) | Resp(o)` (R32). -/
inductive AbstractState where
  | unreset
  | idle
  | busy (c : Command)
  | resp (o : ExecOutcome)
  deriving DecidableEq, Repr

/-- The steps of R32: `Reset`, `Issue` and `Consume` are the host's, `Complete` is the FAU's. -/
inductive AbstractLabel where
  | reset
  | issue (c : Command)
  | complete
  | consume (o : ExecOutcome)
  deriving DecidableEq, Repr

/-- The transitions of R32; none where a step is not enabled. -/
def abstractStep : AbstractState → AbstractLabel → Option AbstractState
  | _, .reset => some .idle
  | .idle, .issue c => some (.busy c)
  | .busy c, .complete => some (.resp (commandOutcome c))
  | .resp o, .consume o' => if o = o' then some .idle else none
  | _, _ => none

/-- The machine's state with time and the host's storage forgotten (R32). -/
def abstraction (s : State) : AbstractState :=
  match s.phase with
  | .unreset => .unreset
  | .idle => .idle
  | .busy => .busy (latched s)
  | .resp => .resp (responseOutcome (responseWires s))

/-- The abstract step that happens at an edge under a cycle of the host, if any (R31, R33, R44, R48). -/
def labelOf (d : Drive) (s : State) : Option AbstractLabel :=
  if d.rst then some .reset
  else match s.phase with
    | .unreset => none
    | .idle => if d.cmdValid then some (.issue { op := d.cmdOp, a := d.cmdA, b := d.cmdB }) else none
    | .busy => if latencyElapsed s then some .complete else none
    | .resp => if d.rspReady then some (.consume (responseOutcome (responseWires s))) else none

end Sys2Proof.Machine
end

