-- ==== Sys2Proof/Machine/Pseudo.lean ====
section
/-! DEFINITION. The pseudo-instructions: host-side macros over host lines (30_encoding.md R80). They have no encoding of their own. -/

namespace Sys2Proof.Machine

/-- The pseudo-instructions of R80. -/
inductive Pseudo where
  | fsqr (x : Source)
  | fdbl (x : Source)
  | fneg (x : Source)
  | fred (x : Source)
  | fmulk (x : Source) (k : Nat)
  | fdiv (x y : Source)
  | feq (x y : Source)
  deriving DecidableEq, Repr

/-- The lines that compute a pseudo-instruction into the temporary `n` (R80). FDIV uses the further temporary `t` for the inverse and
jumps to the label `l` after its last line if that inverse fails: "the second command is not issued then" (log 15). -/
def expand (n t : Nat) (l : List Char) : Pseudo → List HostLine
  | .fsqr x => [.fmul n x x]
  | .fdbl x => [.fadd n x x]
  | .fneg x => [.fsub n (.lit 0) x]
  | .fred x => [.fadd n x (.lit 0)]
  | .fmulk x k => [.fmul n x (.lit k)]
  | .fdiv x y => [.finv t y, .brerr l, .fmul n x (.temp t), .label l]
  | .feq x y => [.fsub n x y]

/-- The host's test of FEQ: 1 iff the difference is 0 (R80). None while the temporary is undefined. -/
def feqHolds (n : Nat) (s : State) : Option Bool := (lookupTemp n s.temps).map fun v => decide (v = 0)

end Sys2Proof.Machine
end

