-- ==== Sys2Proof/Machine/Spelling.lean ====
section
/-! DEFINITION. The written spelling of command and response words, `op:a:b` and `err:r` (30_encoding.md R73). -/

namespace Sys2Proof.Machine

/-- The hex digit of a number below 16. -/
def hexDigit (n : Nat) : Char := if n < 10 then Char.ofNat (48 + n) else Char.ofNat (55 + n)

/-- The number of a hex digit of either case. -/
def hexValue (c : Char) : Option Nat :=
  if 48 ≤ c.toNat ∧ c.toNat ≤ 57 then some (c.toNat - 48)
  else if 65 ≤ c.toNat ∧ c.toNat ≤ 70 then some (c.toNat - 55)
  else if 97 ≤ c.toNat ∧ c.toNat ≤ 102 then some (c.toNat - 87)
  else none

/-- The lowest `k` hex digits of a number, most significant first. -/
def hexDigits : Nat → Nat → List Char
  | 0, _ => []
  | k + 1, n => hexDigit (n / 16 ^ k % 16) :: hexDigits k n

/-- A field: 64 hex digits, most significant digit first (R73). -/
def spellWord (v : Word) : List Char := hexDigits 64 v.toNat

/-- One binary digit. -/
def bitDigit (b : Bool) : Char := if b then '1' else '0'

/-- A command word as `op:a:b` (R73). -/
def spellCommand (c : CommandWord) : List Char :=
  bitDigit ((opField c).getLsbD 1) :: bitDigit ((opField c).getLsbD 0) :: ':' :: spellWord (aField c) ++ ':' :: spellWord (bField c)

/-- A response word as `err:r` (R73). -/
def spellResponse (q : ResponseWord) : List Char :=
  bitDigit (q.getLsbD 256) :: ':' :: spellWord (q.extractLsb' 0 256)

/-- The number of hex digits read left to right on top of `n`. -/
def readDigits (n : Nat) : List Char → Option Nat
  | [] => some n
  | c :: cs => match hexValue c with
    | some d => readDigits (16 * n + d) cs
    | none => none

/-- A field read from 1 to 64 hex digits; fewer than 64 stand for the same value zero-extended (R73). -/
def readWord (cs : List Char) : Option Word :=
  if cs.isEmpty || decide (64 < cs.length) then none else (readDigits 0 cs).map (BitVec.ofNat 256)

/-- One binary digit read. -/
def readBit (c : Char) : Option Bool := if c = '0' then some false else if c = '1' then some true else none

/-- A command word read from its spelling `op:a:b` (R73). -/
def readCommand : List Char → Option CommandWord
  | h :: l :: ':' :: rest =>
    match readBit h, readBit l, readWord (rest.takeWhile (· != ':')), readWord ((rest.dropWhile (· != ':')).drop 1) with
    | some hi, some lo, some a, some b => some (commandWord (BitVec.ofBool hi ++ BitVec.ofBool lo) a b)
    | _, _, _, _ => none
  | _ => none

end Sys2Proof.Machine
end

