-- ==== Sys2Proof/Machine/System.lean ====
section
/-! DEFINITION. Several FAU instances beside each other: each with its own state, nothing shared (60_exceptions.md R161). -/

namespace Sys2Proof.Machine

/-- One edge of the `k`-th of several instances, each with its own host. What a host's fault or refusal at one instance does to the
others the spec leaves open: here it stops the whole system, and an edge of an instance that is not there changes nothing
(DESIGN CHOICE, log 22). -/
def systemStep (k : Nat) (sys : List State) : Host.Outcome (List State) Fault Refusal :=
  match sys[k]? with
  | none => .next sys
  | some s => match step s with
    | .next t => .next (sys.set k t)
    | .fault f => .fault f
    | .refused r => .refused r

end Sys2Proof.Machine
end

