-- ==== Sys2Proof/WellFormed.lean ====
section
/-! DEFINITION. Well-formed instructions and host programs. Every command is well-formed: each operand is a `Word` by its type and
every 256-bit value is legal (30_encoding.md R74, R76), so no check is left for `Instr`. The checks below are those R79 and R81 put on a program's lines. -/

namespace Sys2Proof

/-- R74, R76: every value of every operand of every command is legal. -/
def Instr.wellFormed : Instr → Bool
  | .fadd _ _ => true
  | .fsub _ _ => true
  | .fmul _ _ => true
  | .finv _ => true

namespace Machine

/-- The sources a line reads (R79, R81). -/
def lineSources : HostLine → List Source
  | .fadd _ x y => [x, y]
  | .fsub _ x y => [x, y]
  | .fmul _ x y => [x, y]
  | .finv _ x => [x]
  | .brz n _ => [.temp n]
  | .brnz n _ => [.temp n]
  | .brerr _ => []
  | .halt => []
  | .label _ => []

/-- The temporary a line defines (R79). -/
def lineDest : HostLine → Option Nat
  | .fadd n _ _ => some n
  | .fsub n _ _ => some n
  | .fmul n _ _ => some n
  | .finv n _ => some n
  | .brz _ _ => none
  | .brnz _ _ => none
  | .brerr _ => none
  | .halt => none
  | .label _ => none

/-- The label a line jumps to (R81). -/
def lineTarget : HostLine → Option (List Char)
  | .brerr l => some l
  | .brz _ l => some l
  | .brnz _ l => some l
  | .fadd _ _ _ => none
  | .fsub _ _ _ => none
  | .fmul _ _ _ => none
  | .finv _ _ => none
  | .halt => none
  | .label _ => none

/-- The label a line carries (R81). -/
def lineLabel : HostLine → Option (List Char)
  | .label l => some l
  | .fadd _ _ _ => none
  | .fsub _ _ _ => none
  | .fmul _ _ _ => none
  | .finv _ _ => none
  | .brerr _ => none
  | .brz _ _ => none
  | .brnz _ _ => none
  | .halt => none

/-- R79: a literal is a numeral from 0 to `2^256 - 1`. -/
def Source.fits : Source → Bool
  | .lit v => decide (v < 2 ^ 256)
  | .temp _ => true

/-- R79: a source is a literal or an earlier `tN`. -/
def Source.isEarlier (earlier : List Nat) : Source → Bool
  | .lit _ => true
  | .temp n => earlier.contains n

/-- R79: every literal of the program is in range. -/
def literalsFit (p : List HostLine) : Bool :=
  p.all fun l => (lineSources l).all Source.fits

/-- R79: a `tN` is defined once. R79 leaves open whether this counts lines of text or definitions in a run. Here it counts lines, so a program
whose first line for `tN` errs and whose second defines it is not well-formed, although the sequencer runs it (DESIGN CHOICE, log 23). -/
def destsUnique (p : List HostLine) : Bool :=
  decide (p.filterMap lineDest).Nodup

/-- R79: each line reads only temporaries that a line earlier in the program's sequence of lines defines. -/
def sourcesEarlier (earlier : List Nat) : List HostLine → Bool
  | [] => true
  | l :: ls =>
    (lineSources l).all (Source.isEarlier earlier) && sourcesEarlier ((lineDest l).toList ++ earlier) ls

/-- No label stands on two lines. R81 is silent on a repeated label, so this demand is the model's choice (DESIGN CHOICE, log 21). -/
def labelsUnique (p : List HostLine) : Bool :=
  decide (p.filterMap lineLabel).Nodup

/-- R81: every jump has a line to go to, as `jumps to label` takes for granted (DEDUCED, log 12). -/
def jumpsLand (p : List HostLine) : Bool :=
  (p.filterMap lineTarget).all fun l => (p.filterMap lineLabel).contains l

/-- A well-formed host program (R79, R81; log 12, log 21, log 23). -/
def programWellFormed (p : List HostLine) : Bool :=
  literalsFit p && destsUnique p && sourcesEarlier [] p && labelsUnique p && jumpsLand p

end Machine

end Sys2Proof
end

