-- ==== Sys2Proof/Safety.lean ====
section
/-! DEFINITION. What counts as a safe run, in the terms the statements use: the cycles a host may drive (20_memory.md R61), the invariants of the
machine (10_state.md R30; 20_memory.md R57), runs of edges, and what it is for a command to answer. -/

namespace Sys2Proof.Machine

/-- The command the cycle presents. -/
def presented (d : Drive) : Command := { op := d.cmdOp, a := d.cmdA, b := d.cmdB }

/-- The coming edge is an issue edge: `rst = 0`, `cmd_valid = 1` and `cmd_ready = 1` (R44). -/
def issues (d : Drive) (s : State) : Bool := !d.rst && d.cmdValid && cmdReady d.rst s

/-- The coming edge consumes the response: `rst = 0`, `rsp_valid = 1` and `rsp_ready = 1` (R48). -/
def consumes (d : Drive) (s : State) : Bool := !d.rst && rspValid d.rst s && d.rspReady

/-- The cycle uses no response wire. -/
abbrev usesNothing (d : Drive) : Prop := usesResponse d = false

/-- The duties of the host in one cycle (R61): before the first reset nothing but reset (R34), `rsp_err` used only with a response
there, `rsp_data` only with a response without error (R50, R175), a temporary defined once (R79). That `rsp_ready` and the response wires count
before the first reset is log 6, the uses of wires are log 7, defining twice is log 12, and that a response may be used for a
temporary without being consumed is log 20. -/
structure Admitted (d : Drive) (s : State) : Prop where
  beforeReset : s.phase = .unreset → usesNothing d ∧ (d.rst = true ∨ (d.cmdValid = false ∧ d.rspReady = false))
  errWhenValid : d.readErr = true → rspValid d.rst s = true
  dataWhenGood : d.readData = true → rspValid d.rst s = true ∧ s.err = false
  defineWhenGood : ∀ n, d.define = some n → rspValid d.rst s = true ∧ s.err = false ∧ lookupTemp n s.temps = none

/-- A source has a value: a literal fits a word, a temporary is defined (R79). -/
def readable (ts : List (Nat × Word)) (x : Source) : Prop :=
  x.fits = true ∧ ∀ n, x = .temp n → lookupTemp n ts ≠ none

/-- The label a line jumps to in this state, if it jumps (R81). -/
def jumpLabel (s : State) : HostLine → Option (List Char)
  | .brerr l => if s.lastErr then some l else none
  | .brz n l => if lookupTemp n s.temps = some 0 then some l else none
  | .brnz n l => if lookupTemp n s.temps = some 0 then none else some l
  | .fadd _ _ _ => none
  | .fsub _ _ _ => none
  | .fmul _ _ _ => none
  | .finv _ _ => none
  | .halt => none
  | .label _ => none

/-- `k` is the first line that carries the label (R81; that the first counts is log 21). -/
def firstLabelled (l : List Char) (p : List HostLine) (k : Nat) : Prop :=
  p[k]? = some (.label l) ∧ ∀ j < k, p[j]? ≠ some (.label l)

/-- The host keeps its duties in the coming step: a scripted cycle is admitted (R61); without a script, there is no program to run before
the first reset (R34, log 6), an awaited temporary is still undefined when its good response is there (R79, log 12), the sources of the
sequencer's line have values (R79, log 12), and a jump it takes has a line to go to (R81, log 12). -/
structure StepAdmitted (s : State) : Prop where
  scripted : ∀ d ds, s.script = d :: ds → Admitted d s
  beforeReset : s.script = [] → s.phase = .unreset → s.awaiting = none ∧ s.program = []
  awaited : s.script = [] → ∀ n, s.awaiting = some n → s.phase = .resp → s.err = false → lookupTemp n s.temps = none
  sources : s.script = [] → s.awaiting = none → ∀ l, s.program[s.line]? = some l → ∀ x ∈ lineSources l, readable s.temps x
  target : s.script = [] → s.awaiting = none → ∀ l m, s.program[s.line]? = some l → jumpLabel s l = some m → .label m ∈ s.program

/-- How many commands the FAU holds: one from its issue edge until its response is consumed (R45). -/
def held (s : State) : Nat :=
  match s.phase with
  | .unreset => 0
  | .idle => 0
  | .busy => 1
  | .resp => 1

/-- The invariants of the machine. `holdsOne` is I3, `holdsLast` is I1 and the rest of I2's "that same command", `answered` is I2 (R30);
`inOrder` is R57; `latencyPositive` is R12. -/
structure Inv (s : State) : Prop where
  holdsOne : s.issued.length = s.delivered.length + held s
  holdsLast : held s = 1 → s.issued.getLast? = some (latched s)
  answered : s.phase = .resp → responseOutcome (responseWires s) = commandOutcome (latched s)
  inOrder : s.delivered.map responseOutcome = (s.issued.take s.delivered.length).map commandOutcome
  latencyPositive : s.phase = .busy → 1 ≤ s.latencyLeft

/-- Successive edges under successive cycles of the host, stopping at the first fault or refusal. -/
def runEdges : List Drive → State → Host.Outcome State Fault Refusal
  | [], s => .next s
  | d :: ds, s => match edge d s with
    | .next t => runEdges ds t
    | .fault f => .fault f
    | .refused r => .refused r

/-- Successive steps, stopping at the first fault or refusal. -/
def runSteps : Nat → State → Host.Outcome State Fault Refusal
  | 0, s => .next s
  | k + 1, s => match step s with
    | .next t => runSteps k t
    | .fault f => .fault f
    | .refused r => .refused r

/-- A command completes with `Ok(r)` whatever the state (R17, R56): it goes on to RESP with ERR 0 and RES `r`. -/
def answers (i : Instr) (r : Word) : Prop :=
  ∀ s, ∃ t, exec i s = .next t ∧ t.phase = .resp ∧ t.err = false ∧ t.res = r

/-- A command completes with `Err(ZeroInverse)` whatever the state (R17, R150): it goes on to RESP with ERR 1. -/
def answersZeroInverse (i : Instr) : Prop :=
  ∀ s, ∃ t, exec i s = .next t ∧ t.phase = .resp ∧ t.err = true

end Sys2Proof.Machine
end

