-- ==== Sys2Proof/Certificates/Slice0/Obligations.lean ====
section
/-! DEFINITION. The statements for the provers. -/

open Sys2Proof Sys2Proof.Machine

/-! ## Encoding -/

/-- Encoding and decoding agree in both directions (R70, R71, R76, R78, R79): every command is read back from its word with every operand,
and every word is its command's word, except that FINV's ignored field `b` reads back as the 0 the assembler writes (R75). -/
def Obligations.DecodeEncodeAgree : Prop :=
  (∀ i : Instr, decode (encode i) = i ∧ decodeTableWord 514 (encode i).toNat = some i) ∧
  (∀ c : CommandWord, encode (decode c) = if opField c = 0b11#2 then commandWord 0b11#2 (aField c) 0 else c)

/-- R70 and R78: the command word is the integer `op * 2^512 + a * 2^256 + b`, and the decoder reads `op`, `a` and `b` out of it. -/
def Obligations.CommandWordLayout : Prop :=
  ∀ (op : BitVec 2) (a b : Word),
    (commandWord op a b).toNat = op.toNat * 2 ^ 512 + a.toNat * 2 ^ 256 + b.toNat ∧
    (op = 0b00#2 → decode (commandWord op a b) = .fadd a b) ∧
    (op = 0b01#2 → decode (commandWord op a b) = .fsub a b) ∧
    (op = 0b10#2 → decode (commandWord op a b) = .fmul a b) ∧
    (op = 0b11#2 → decode (commandWord op a b) = .finv a)

/-- Encoding vectors of 95_test_vectors.md section 2.5, one word per command. -/
def Obligations.KnownWordsDecode : Prop :=
  decodeTableWord 514 0x000000000000000000000000000000000000000000000000000000000000000010000000000000000000000000000000000000000000000000000000000000002 = some (.fadd 1 2) ∧
  decodeTableWord 514 0x100000000000000000000000000000000000000000000000000000000000000030000000000000000000000000000000000000000000000000000000000000005 = some (.fsub 3 5) ∧
  decodeTableWord 514 0x200000000000000000000000000000000000000000000000000000000000000030000000000000000000000000000000000000000000000000000000000000005 = some (.fmul 3 5) ∧
  decodeTableWord 514 0x300000000000000000000000000000000000000000000000000000000000000020000000000000000000000000000000000000000000000000000000000000000 = some (.finv 2)

/-- R76: every number of 514 bits is a command; the model's decoder of numbers rejects a wider number by name (log 9). -/
def Obligations.DecodingIsTotal : Prop :=
  (∀ n < 2 ^ 514, ∃ i : Instr, decodeNumber n = .ok i) ∧
  (∀ n, 2 ^ 514 ≤ n → decodeNumber n = .error (.notACommandWord n))

/-- R75: FINV ignores `b`, in decoding and in its outcome; the assembler writes 0. -/
def Obligations.FinvIgnoresSecondOperand : Prop :=
  ∀ a b b' : Word,
    decode (commandWord 0b11#2 a b) = decode (commandWord 0b11#2 a b') ∧
    commandOutcome ⟨0b11#2, a, b⟩ = commandOutcome ⟨0b11#2, a, b'⟩ ∧
    encode (.finv a) = commandWord 0b11#2 a 0

/-- R72: bit 256 of the response word is `err`, its low 256 bits are `r`. -/
def Obligations.ResponseWordLayout : Prop :=
  ∀ q : Response,
    (responseWord q).getLsbD 256 = q.err ∧ (responseWord q).extractLsb' 0 256 = q.data ∧
    (responseWord q).toNat = (if q.err then 2 ^ 256 else 0) + q.data.toNat

/-- R73: a command word is read back from its spelling `op:a:b`. -/
def Obligations.SpellingReadsBack : Prop :=
  ∀ c : CommandWord, readCommand (spellCommand c) = some c

/-- R54: the 32-byte view is big-endian, `B[0]` most significant; a word is recovered from its view and a view from its word. -/
def Obligations.ByteViewBigEndian : Prop :=
  (∀ v : Word, (byteView v).length = 32 ∧ wordOfBytes (byteView v) = some v ∧
    ∀ j < 32, (byteView v)[j]? = some (BitVec.ofNat 8 (v.toNat / 2 ^ (248 - 8 * j)))) ∧
  (∀ bs : List (BitVec 8), bs.length = 32 → ∃ v, wordOfBytes bs = some v ∧ byteView v = bs)

/-! ## Results of the commands, with all they leave unchanged -/

/-- R90: the word `00:a:b` completes with `Ok((canon a + canon b) mod P)`: STATE, RES and ERR are written and nothing else changes. -/
def Obligations.FaddResult : Prop :=
  ∀ (a b : Word) (s : State), decode (commandWord 0b00#2 a b) = .fadd a b ∧
    ∃ r : Word, r.toNat = (canon a + canon b) % P ∧
      exec (.fadd a b) s = .next { s with phase := .resp, res := r, err := false }

/-- R95: the word `01:a:b` completes with the least non-negative residue of `canon a - canon b`: `d` if `d ≥ 0`, else `d + P`. -/
def Obligations.FsubResult : Prop :=
  ∀ (a b : Word) (s : State), decode (commandWord 0b01#2 a b) = .fsub a b ∧
    ∃ r : Word, (r.toNat : Int) = ((canon a : Int) - (canon b : Int)) % (P : Int) ∧
      (canon b ≤ canon a → r.toNat = canon a - canon b) ∧ (canon a < canon b → r.toNat + canon b = canon a + P) ∧
      exec (.fsub a b) s = .next { s with phase := .resp, res := r, err := false }

/-- R110: the word `10:a:b` completes with the exact product of the residues reduced modulo P. -/
def Obligations.FmulResult : Prop :=
  ∀ (a b : Word) (s : State), decode (commandWord 0b10#2 a b) = .fmul a b ∧
    ∃ r : Word, r.toNat = canon a * canon b % P ∧
      exec (.fmul a b) s = .next { s with phase := .resp, res := r, err := false }

/-- R130: the word `11:a:b` completes with `canon a ^ (P - 2) mod P`, never 0, if `canon a` is not 0, and with ERR 1 if it is. In the second
case RES takes any word (R31), and that this is a free value drawn by advancing `draws` is the model's choice (log 3). -/
def Obligations.FinvResult : Prop :=
  ∀ (a b : Word) (s : State), decode (commandWord 0b11#2 a b) = .finv a ∧
    (canon a ≠ 0 → ∃ r : Word, r.toNat = canon a ^ (P - 2) % P ∧ r ≠ 0 ∧
      exec (.finv a) s = .next { s with phase := .resp, res := r, err := false }) ∧
    (canon a = 0 → ∃ v : Word, exec (.finv a) s = .next { s with phase := .resp, res := v, err := true, draws := s.draws + 1 })

/-- R131: FINV of a zero residue, that is of 0 and of P and of nothing else, completes with ERR 1, offers its response, and returns
the FAU to IDLE when the response is consumed. -/
def Obligations.FinvOfZeroCompletes : Prop :=
  ∀ a : Word, (canon a = 0 ↔ a = 0 ∨ a = BitVec.ofNat 256 P) ∧
    (canon a = 0 → ∀ s : State, ∃ t, exec (.finv a) s = .next t ∧ t.err = true ∧ rspValid false t = true ∧
      (∀ r, outcomeOf (.finv a) ≠ .ok r) ∧ ∃ u, edge Drive.ready t = .next u ∧ u.phase = .idle ∧
        u.delivered = s.delivered ++ [responseWires t] ∧ responseOutcome (responseWires t) = .zeroInverse)

/-- R25, R150: every completion writes ERR, with 1 for a FINV of a zero residue and 0 otherwise. -/
def Obligations.ErrOnlyFromFinvOfZero : Prop :=
  ∀ (i : Instr) (s : State), ∃ t, exec i s = .next t ∧
    (t.err = true ↔ ∃ a : Word, i = .finv a ∧ canon a = 0)

/-- R56, R151: the outcome of a command word depends on the word alone, not on earlier commands, an earlier error, time or any other state. -/
def Obligations.OutcomeDependsOnWordOnly : Prop :=
  ∀ (c : CommandWord) (s s' : State), ∃ t t', exec (decode c) s = .next t ∧ exec (decode c) s' = .next t' ∧
    t.err = t'.err ∧ (t.err = false → t.res = t'.res)

/-- R74, R92, R97, R112, R133: every operation takes an operand as its residue; a word `v ≥ P` is `v - P`, at most `2^32 + 976`.
R31 and R131 leave RES unspecified after FINV of a zero residue. That FINV of 0 and FINV of P, from one state, leave the same free value
there is the model's choice: it is drawn at the counter `draws` and not at the operand (log 3). -/
def Obligations.OperandsCountAsResidues : Prop :=
  (∀ v : Word, P ≤ v.toNat → canon v = v.toNat - P ∧ canon v ≤ 2 ^ 32 + 976) ∧
  (∀ a a' b b' : Word, canon a = canon a' → canon b = canon b' → ∀ s : State,
    exec (.fadd a b) s = exec (.fadd a' b') s ∧ exec (.fsub a b) s = exec (.fsub a' b') s ∧
    exec (.fmul a b) s = exec (.fmul a' b') s ∧ exec (.finv a) s = exec (.finv a') s)

/-! ## The laws of the operations -/

/-- R93: the laws of FADD, for all words: results in Fp, commutative, associative, 0 neutral up to `canon`, residues only, and one inverse. -/
def Obligations.FaddLaws : Prop :=
  ∀ a b c : Word, ∃ ab bc abc : Word,
    answers (.fadd a b) ab ∧ ab.toNat < P ∧
    answers (.fadd b a) ab ∧
    answers (.fadd b c) bc ∧ answers (.fadd ab c) abc ∧ answers (.fadd a bc) abc ∧
    answers (.fadd a 0) (BitVec.ofNat 256 (canon a)) ∧
    answers (.fadd (BitVec.ofNat 256 (canon a)) (BitVec.ofNat 256 (canon b))) ab ∧
    (∀ x : Word, x.toNat < P → (answers (.fadd a x) 0 ↔ x.toNat = (P - canon a) % P))

/-- R98: the laws of FSUB, for all words. -/
def Obligations.FsubLaws : Prop :=
  ∀ a b : Word, ∃ ab nb : Word,
    answers (.fsub a b) ab ∧ ab.toNat < P ∧
    answers (.fsub a a) 0 ∧
    answers (.fadd ab b) (BitVec.ofNat 256 (canon a)) ∧
    answers (.fsub 0 b) nb ∧ answers (.fadd a nb) ab ∧
    (ab = 0 ↔ a.toNat % P = b.toNat % P)

/-- R113: the laws of FMUL, for all words; the last one is that there are no zero divisors. -/
def Obligations.FmulLaws : Prop :=
  ∀ a b c : Word, ∃ ab bc abc ac sum r : Word,
    answers (.fmul a b) ab ∧ ab.toNat < P ∧
    answers (.fmul b a) ab ∧
    answers (.fmul b c) bc ∧ answers (.fmul ab c) abc ∧ answers (.fmul a bc) abc ∧
    answers (.fmul a 1) (BitVec.ofNat 256 (canon a)) ∧
    answers (.fmul a 0) 0 ∧
    answers (.fadd b c) sum ∧ answers (.fmul a c) ac ∧ answers (.fmul a sum) r ∧ answers (.fadd ab ac) r ∧
    (ab = 0 ↔ a.toNat % P = 0 ∨ b.toNat % P = 0)

/-- R132: for a non-zero residue FINV's answer is the one `r` in Fp whose product with the operand is 1, so FMUL confirms it. -/
def Obligations.FinvIsTheInverse : Prop :=
  ∀ a : Word, canon a ≠ 0 → ∃ r : Word, answers (.finv a) r ∧ r.toNat < P ∧ canon a * r.toNat % P = 1 ∧
    answers (.fmul a r) 1 ∧ ∀ x : Word, x.toNat < P → canon a * x.toNat % P = 1 → x = r

/-- R133: the laws of FINV, for all words of non-zero residue. -/
def Obligations.FinvLaws : Prop :=
  (∀ a b : Word, canon a ≠ 0 → canon b ≠ 0 → ∃ ia ib ab iab : Word,
    answers (.finv a) ia ∧ ia.toNat < P ∧ ia ≠ 0 ∧
    answers (.finv ia) (BitVec.ofNat 256 (canon a)) ∧
    answers (.finv b) ib ∧ answers (.fmul a b) ab ∧ answers (.finv ab) iab ∧ answers (.fmul ia ib) iab ∧
    answers (.finv (BitVec.ofNat 256 (canon a))) ia) ∧
  answers (.finv 1) 1 ∧
  answers (.finv (BitVec.ofNat 256 (P - 1))) (BitVec.ofNat 256 (P - 1))

/-- R114: doubling by FADD and by FMUL 2 agree, and a factor 3 may stand on either side. -/
def Obligations.SmallConstantsByFmul : Prop :=
  ∀ x y : Word, (∃ r, answers (.fadd y y) r ∧ answers (.fmul 2 y) r) ∧
    ∃ xx r, answers (.fmul x x) xx ∧ answers (.fmul 3 xx) r ∧ answers (.fmul xx 3) r

/-- R80: the pseudo-instructions compute what their rows say, through the commands of their expansions; FDIV gives ZeroInverse for a zero divisor.
That FDIV's expansion holds a BRERR to a label after its FMUL is the model's choice (log 15). -/
def Obligations.PseudoInstructionsCompute : Prop :=
  ∀ (n t : Nat) (l : List Char) (x y : Source) (k : Nat) (a b : Word), k < 2 ^ 256 →
    (expand n t l (.fsqr x) = [.fmul n x x] ∧ ∃ r, answers (.fmul a a) r ∧ r.toNat = a.toNat ^ 2 % P) ∧
    (expand n t l (.fdbl x) = [.fadd n x x] ∧ ∃ r, answers (.fadd a a) r ∧ r.toNat = 2 * a.toNat % P) ∧
    (expand n t l (.fneg x) = [.fsub n (.lit 0) x] ∧ ∃ r, answers (.fsub 0 a) r ∧ (r.toNat : Int) = (-(a.toNat : Int)) % (P : Int)) ∧
    (expand n t l (.fred x) = [.fadd n x (.lit 0)] ∧ answers (.fadd a 0) (BitVec.ofNat 256 (canon a))) ∧
    (expand n t l (.fmulk x k) = [.fmul n x (.lit k)] ∧ ∃ r, answers (.fmul a (BitVec.ofNat 256 k)) r ∧ r.toNat = k * a.toNat % P) ∧
    (expand n t l (.fdiv x y) = [.finv t y, .brerr l, .fmul n x (.temp t), .label l] ∧
      (canon b = 0 → answersZeroInverse (.finv b)) ∧
      (canon b ≠ 0 → ∃ u r, answers (.finv b) u ∧ answers (.fmul a u) r ∧ r.toNat * b.toNat % P = a.toNat % P)) ∧
    (expand n t l (.feq x y) = [.fsub n x y] ∧ ∃ r, answers (.fsub a b) r ∧ (r = 0 ↔ a.toNat % P = b.toNat % P))

/-! ## The handshakes and reset -/

/-- With the latency elapsed, the step is the decoded command's effect: the step adds only that the host's cycle is used up. The second clause
is the placing of a command in flight that the host's tools use (log 8). -/
def Obligations.StepRunsDecodedCommand : Prop :=
  (∀ (s : State) (d : Drive) (ds : List Drive), s.script = d :: ds → d.rst = false → usesNothing d → s.phase = .busy → s.latencyLeft ≤ 1 →
    step s = exec (decode (commandWord s.opc s.opa s.opb)) { s with script := ds }) ∧
  (∀ (s : State) (w : Nat), w < 2 ^ 514 →
    step (s.withFetchWord 514 w) = exec (decode (BitVec.ofNat 514 w)) { s.withFetchWord 514 w with script := s.script })

/-- R44: a command is taken exactly at an edge with `rst = 0`, `cmd_valid = 1` and `cmd_ready = 1`; at no other edge does BUSY begin or a command
join those taken. That the host's record of them begins again, empty, at a reset edge is the model's choice (log 10). -/
def Obligations.CommandTakenOnlyAtIssueEdge : Prop :=
  ∀ (d : Drive) (s t : State), edge d s = .next t →
    (d.rst = false ∧ d.cmdValid = true ∧ cmdReady d.rst s = true → t.issued = s.issued ++ [presented d] ∧ t.phase = .busy) ∧
    (¬ (d.rst = false ∧ d.cmdValid = true ∧ cmdReady d.rst s = true) →
      t.issued = (if d.rst then [] else s.issued) ∧ (t.phase = .busy → s.phase = .busy))

/-- R46: the issue edge latches the command and enters BUSY, and while a command is in flight the command wires have no effect.
That the outcome depends on the latched values alone is said by OutcomeDependsOnWordOnly and CommandCompletesInItsLatency. -/
def Obligations.IssueLatchesAndIsolates : Prop :=
  (∀ (d : Drive) (s : State), usesNothing d → d.rst = false → d.cmdValid = true → s.phase = .idle →
    ∃ t, edge d s = .next t ∧ t.phase = .busy ∧ t.opc = d.cmdOp ∧ t.opa = d.cmdA ∧ t.opb = d.cmdB ∧
      t.res = s.res ∧ t.err = s.err ∧ t.delivered = s.delivered ∧ t.temps = s.temps ∧ 1 ≤ t.latencyLeft) ∧
  (∀ (d : Drive) (s : State) (v : Bool) (op : BitVec 2) (a b : Word), s.phase = .busy ∨ s.phase = .resp →
    edge { d with cmdValid := v, cmdOp := op, cmdA := a, cmdB := b } s = edge d s)

/-- R20, R31: OPC, OPA and OPB are written at issue edges only, RES and ERR at completion edges only, once the FAU has been reset. -/
def Obligations.RegistersWrittenOnlyWhereNamed : Prop :=
  ∀ (d : Drive) (s t : State), s.phase ≠ .unreset → edge d s = .next t →
    (issues d s = false → t.opc = s.opc ∧ t.opa = s.opa ∧ t.opb = s.opb) ∧
    (¬ (s.phase = .busy ∧ t.phase = .resp) → t.res = s.res ∧ t.err = s.err) ∧
    (t.program = s.program ∧ t.script = s.script ∧ t.line = s.line)

/-- R48: a response is consumed at an edge with `rst = 0`, `rsp_valid = 1` and `rsp_ready = 1`: the host receives the response word as it stood and
the FAU goes to IDLE; at no other edge is a response delivered, so each is delivered once. That the host's record of them begins again, empty, at a
reset edge is the model's choice (log 10). -/
def Obligations.ResponseDeliveredOnce : Prop :=
  (∀ (d : Drive) (s : State), usesNothing d → consumes d s = true → ∃ t, edge d s = .next t) ∧
  (∀ (d : Drive) (s t : State), edge d s = .next t →
    (d.rst = false ∧ rspValid d.rst s = true ∧ d.rspReady = true →
      t.delivered = s.delivered ++ [responseWires s] ∧ t.phase = .idle ∧ t.lastErr = s.err ∧ rspValid false t = false) ∧
    (¬ (d.rst = false ∧ rspValid d.rst s = true ∧ d.rspReady = true) →
      t.delivered = (if d.rst then [] else s.delivered) ∧ t.lastErr = s.lastErr))

/-- R49: a pending response holds for any number of cycles until it is consumed; only a reset edge withdraws it. -/
def Obligations.PendingResponseHolds : Prop :=
  (∀ (ds : List Drive) (s t : State), s.phase = .resp → (∀ d ∈ ds, d.rst = false ∧ d.rspReady = false) → runEdges ds s = .next t →
    t.phase = .resp ∧ responseWires t = responseWires s ∧ t = { s with temps := t.temps }) ∧
  (∀ (d : Drive) (s t : State), s.phase = .resp → edge d s = .next t → t.phase ≠ .resp → d.rst = true ∨ d.rspReady = true)

/-- R51: `rsp_ready = 1` without a response has no effect, and where it is held a response is consumed at the first edge at which it is valid.
Before the first reset `rsp_valid` has no meaning (R34) and the model refuses the cycle (log 6), so those states are left to another statement. -/
def Obligations.ReadyWithoutResponseHasNoEffect : Prop :=
  (∀ (d : Drive) (s : State), s.phase ≠ .unreset → rspValid d.rst s = false →
    edge { d with rspReady := true } s = edge { d with rspReady := false } s) ∧
  (∀ s : State, s.phase = .resp → ∃ t, edge Drive.ready s = .next t ∧ t.phase = .idle ∧ t.delivered = s.delivered ++ [responseWires s])

/-- R33: a reset edge sets STATE to IDLE and writes no other register, with priority over both handshakes: nothing is taken and nothing is
delivered; afterwards the registers cannot be observed, since any use of the response wires faults. That the host's records of commands and
responses begin again, empty, is the model's choice (log 10). -/
def Obligations.ResetEdgeWritesOnlyState : Prop :=
  (∀ (d : Drive) (s : State), usesNothing d → d.rst = true → ∃ t, edge d s = .next t) ∧
  (∀ (d : Drive) (s t : State), d.rst = true → edge d s = .next t →
    t.phase = .idle ∧ t.opc = s.opc ∧ t.opa = s.opa ∧ t.opb = s.opb ∧ t.res = s.res ∧ t.err = s.err ∧
    t.issued = [] ∧ t.delivered = [] ∧ t.lastErr = s.lastErr ∧ t.temps = s.temps ∧
    cmdReady false t = true ∧ rspValid false t = false ∧
    ∀ d' : Drive, usesResponse d' = true → ∃ f, edge d' t = .fault f)

/-- R173: holding `rst = 1` for any number of edges has the same effect as one edge. -/
def Obligations.ResetIsIdempotent : Prop :=
  ∀ (ds : List Drive) (d : Drive) (s : State), usesNothing d → d.rst = true → ds ≠ [] →
    (∀ e ∈ ds, usesNothing e ∧ e.rst = true) → runEdges ds s = edge d s

/-- R26, R33, R170: right after reset the FAU is IDLE, ready for a command, and offers no response. -/
def Obligations.ResetStateIsReady : Prop :=
  State.reset.phase = .idle ∧ cmdReady false State.reset = true ∧ rspValid false State.reset = false ∧
  ∀ c : Command, ∃ t, edge { Drive.idle with cmdValid := true, cmdOp := c.op, cmdA := c.a, cmdB := c.b } State.reset = .next t ∧
    t.phase = .busy ∧ latched t = c

/-- R34, R61: before the first reset every host step but reset is refused. That `rsp_ready = 1` and a use of the response wires count as
such steps is the model's choice (log 6). -/
def Obligations.OnlyResetBeforeFirstReset : Prop :=
  powerUp.phase = .unreset ∧
  ∀ (d : Drive) (s : State), s.phase = .unreset →
    (usesNothing d → d.rst = true → ∃ t, edge d s = .next t ∧ t.phase = .idle) ∧
    (usesNothing d → d.rst = false → d.cmdValid = true → edge d s = .refused .issueBeforeReset) ∧
    (usesNothing d → d.rst = false → d.cmdValid = false → d.rspReady = true → edge d s = .refused .responseBeforeReset) ∧
    (usesResponse d = true → edge d s = .refused .responseBeforeReset) ∧
    (usesNothing d → d.rst = false → d.cmdValid = false → d.rspReady = false → ∃ t, edge d s = .next t ∧ t.phase = .unreset)

/-- R50, R152: the host's unsound uses of the response wires are faults. -/
def Obligations.UnsoundUseOfResponseFaults : Prop :=
  ∀ (d : Drive) (s : State), s.phase ≠ .unreset →
    (d.readData = true → rspValid d.rst s = false → ∃ f, edge d s = .fault f) ∧
    (d.readErr = true → rspValid d.rst s = false → edge d s = .fault .errWithoutResponse) ∧
    (d.readData = true → s.err = true → ∃ f, edge d s = .fault f) ∧
    (∀ n, d.define = some n → s.err = true → rspValid d.rst s = true → edge d s = .fault .temporaryFromErroredResponse)

/-- R61: an edge answers a next state exactly when the host's cycle keeps the host's duties. That before the first reset `rsp_ready = 1` and the
response wires count among them (log 6), what counts as a use of the wires (log 7, log 20), and that defining a temporary twice is refused an
answer (log 12) are the model's choice. -/
def Obligations.EdgeAnswersExactlyWhenAdmitted : Prop :=
  ∀ (d : Drive) (s : State), (∃ t, edge d s = .next t) ↔ Admitted d s

/-- R79: a temporary is defined by a cycle that names it, from the data of a good response, and no edge changes any other. A cycle
that does not consume the response may define one too, which is the model's choice (log 20). -/
def Obligations.TemporariesChangeOnlyByDefinition : Prop :=
  ∀ (d : Drive) (s t : State), edge d s = .next t →
    (∀ n, d.define = some n → s.err = false ∧ lookupTemp n s.temps = none ∧ lookupTemp n t.temps = some s.res) ∧
    (∀ n, d.define ≠ some n → lookupTemp n t.temps = lookupTemp n s.temps)

/-! ## Runs -/

/-- R178, R31: a command in flight completes after exactly the edges its latency has left, whatever the host drives without a reset, and not before.
A count of 0 left, which no run from reset reaches, is counted as elapsed (log 2). -/
def Obligations.CommandCompletesInItsLatency : Prop :=
  ∀ (s : State) (ds : List Drive), s.phase = .busy → (∀ d ∈ ds, d.rst = false ∧ usesNothing d) →
    (ds.length < max 1 s.latencyLeft → ∃ t, runEdges ds s = .next t ∧ t.phase = .busy ∧ latched t = latched s) ∧
    (ds.length = max 1 s.latencyLeft → ∃ t, runEdges ds s = .next t ∧ t.phase = .resp ∧ latched t = latched s ∧
      responseOutcome (responseWires t) = commandOutcome (latched s))

/-- R180: a response is never valid in the cycle of its issue edge nor in the next; after an issue at edge `k` the FAU is not ready again before
`LATENCY + 1` further edges and the next issue comes at edge `k + LATENCY + 2` at the earliest, no reset intervening; and it is ready in the cycle after the consume edge. -/
def Obligations.TurnaroundBounds : Prop :=
  (∀ (d : Drive) (s t : State), issues d s = true → edge d s = .next t →
    rspValid d.rst s = false ∧ rspValid false t = false ∧
    ∀ (ds : List Drive) (u : State), (∀ e ∈ ds, e.rst = false) → runEdges ds t = .next u →
      (rspValid false u = true → latency s.draws (presented d) ≤ ds.length) ∧
      (cmdReady false u = true → latency s.draws (presented d) + 1 ≤ ds.length) ∧
      (∀ e : Drive, issues e u = true → latency s.draws (presented d) + 2 ≤ ds.length + 1)) ∧
  (∀ (d : Drive) (s t : State), consumes d s = true → edge d s = .next t → cmdReady false t = true)

/-- R30, R57: every step keeps the invariants: at most one command held, the latches holding the command taken last, a pending response encoding its
outcome, the n-th response since reset being the outcome of the n-th command, and a latency left while a command is in flight. -/
def Obligations.StepKeepsInvariants : Prop :=
  ∀ s t : State, Inv s → step s = .next t → Inv t

/-- The invariants, and the order of the host's storage, hold right after reset and after power-up. -/
def Obligations.InvariantsHoldInitially : Prop :=
  Inv State.reset ∧ Inv powerUp ∧ tempsCanonical State.reset.temps ∧ tempsCanonical powerUp.temps

/-- Every step keeps the host's temporaries in their canonical form, numbers strictly rising (log 12). -/
def Obligations.StepKeepsTemporariesOrdered : Prop :=
  ∀ s t : State, tempsCanonical s.temps → step s = .next t → tempsCanonical t.temps

/-- R57: along any run of edges that begins right after a reset edge, the n-th response is the outcome of the n-th command. -/
def Obligations.ResponsesInIssueOrder : Prop :=
  ∀ (d : Drive) (ds : List Drive) (s t u : State), d.rst = true → edge d s = .next t → runEdges ds t = .next u →
    ∀ (n : Nat) (q : Response), u.delivered[n]? = some q → ∃ c : Command, u.issued[n]? = some c ∧ responseOutcome q = commandOutcome c ∧
      (q.err = false → q.data.toNat < P)

/-- R32: forgetting time and the host's storage, every edge is a step of the abstract machine or changes nothing of it. -/
def Obligations.EdgeRefinesAbstractMachine : Prop :=
  ∀ (d : Drive) (s t : State), edge d s = .next t →
    match labelOf d s with
    | none => abstraction t = abstraction s
    | some l => abstractStep (abstraction s) l = some (abstraction t)

/-! ## The host's sequencer and several units -/

/-- R79: a command line whose sources have values is issued as its command word in one step, and the sequencer awaits its response.
That the sequencer does so in one step is the model's choice (log 11). -/
def Obligations.HostLineIsIssued : Prop :=
  ∀ (s : State) (n : Nat) (x y : Source) (a b : Word), s.script = [] → s.awaiting = none → s.phase = .idle →
    sourceValue s.temps x = .ok a → sourceValue s.temps y = .ok b →
    (s.program[s.line]? = some (.fadd n x y) →
      ∃ t, step s = .next t ∧ t.phase = .busy ∧ latched t = ⟨0b00#2, a, b⟩ ∧ t.awaiting = some n ∧ t.line = s.line) ∧
    (s.program[s.line]? = some (.fsub n x y) →
      ∃ t, step s = .next t ∧ t.phase = .busy ∧ latched t = ⟨0b01#2, a, b⟩ ∧ t.awaiting = some n ∧ t.line = s.line) ∧
    (s.program[s.line]? = some (.fmul n x y) →
      ∃ t, step s = .next t ∧ t.phase = .busy ∧ latched t = ⟨0b10#2, a, b⟩ ∧ t.awaiting = some n ∧ t.line = s.line) ∧
    (s.program[s.line]? = some (.finv n x) →
      ∃ t, step s = .next t ∧ t.phase = .busy ∧ latched t = ⟨0b11#2, a, 0⟩ ∧ t.awaiting = some n ∧ t.line = s.line)

/-- R79, R176: from an awaited command in flight the sequencer comes, in as many steps as the latency needs and one more, to the next line with the
response consumed: the temporary is defined by the result if there is no error, and stays undefined with the error remembered if there is.
The number of the host's steps is the model's choice (log 11). -/
def Obligations.HostLineRunsToItsResponse : Prop :=
  ∀ (s : State) (n : Nat), s.script = [] → s.awaiting = some n → s.phase = .busy → lookupTemp n s.temps = none →
    ∃ t, runSteps (max 1 s.latencyLeft + 1) s = .next t ∧ t.phase = .idle ∧ t.awaiting = none ∧ t.line = s.line + 1 ∧
      (∀ r, commandOutcome (latched s) = .ok r → lookupTemp n t.temps = some r ∧ t.lastErr = false) ∧
      (commandOutcome (latched s) = .zeroInverse → t.temps = s.temps ∧ t.lastErr = true) ∧
      (∀ m, m ≠ n → lookupTemp m t.temps = lookupTemp m s.temps)

/-- R81: where the host's control lines go: BRERR by the last consumed response's `err`, BRZ and BRNZ by the temporary, HALT stays, a label passes.
A line that does not jump needs no label. One step for each line, and staying on HALT, are the model's choice (log 11), and so is that of
several lines with the label the first counts (log 21). -/
def Obligations.ControlLinesMoveTheSequencer : Prop :=
  ∀ s t : State, s.script = [] → s.awaiting = none → step s = .next t →
    (∀ l, s.program[s.line]? = some (.brerr l) →
      (s.lastErr = true → firstLabelled l s.program t.line) ∧ (s.lastErr = false → t.line = s.line + 1)) ∧
    (∀ n l v, s.program[s.line]? = some (.brz n l) → lookupTemp n s.temps = some v →
      (v = 0 → firstLabelled l s.program t.line) ∧ (v ≠ 0 → t.line = s.line + 1)) ∧
    (∀ n l v, s.program[s.line]? = some (.brnz n l) → lookupTemp n s.temps = some v →
      (v ≠ 0 → firstLabelled l s.program t.line) ∧ (v = 0 → t.line = s.line + 1)) ∧
    (s.program[s.line]? = some .halt → t.line = s.line) ∧
    (∀ m, s.program[s.line]? = some (.label m) → t.line = s.line + 1)

/-- R161: an edge of one of several units changes no other unit. -/
def Obligations.UnitsShareNothing : Prop :=
  ∀ (k : Nat) (sys sys' : List State), systemStep k sys = .next sys' →
    sys'.length = sys.length ∧ (∀ j, j ≠ k → sys'[j]? = sys[j]?) ∧
    ∀ s, sys[k]? = some s → ∃ t, step s = .next t ∧ sys'[k]? = some t

/-! ## Stops and resets of the sequencer -/

/-- R61, R79, R81: a step answers a next state exactly when the host keeps its duties in it, whether its cycle is scripted or its
sequencer's. Which uses before the first reset are refused is log 6, the uses of the response wires are log 7 and log 20, and that a program
stops on an undefined or twice defined temporary, on a literal that does not fit and on a missing label is log 12. -/
def Obligations.StepAnswersExactlyWhenAdmitted : Prop :=
  ∀ s : State, (∃ t, step s = .next t) ↔ StepAdmitted s

/-- R79, R81: the name of each stop of the sequencer. All of them are the model's choice (log 12). The sources of a line are read in their order,
a command line's before anything is presented. -/
def Obligations.SequencerStopsByName : Prop :=
  (∀ (s : State) (l : HostLine) (x : Source) (xs ys : List Source), s.script = [] → s.awaiting = none → s.program[s.line]? = some l →
    lineSources l = xs ++ x :: ys → (∀ y ∈ xs, readable s.temps y) →
    (∀ n, x = .temp n → lookupTemp n s.temps = none → step s = .fault (.temporaryUndefined n)) ∧
    (∀ v, x = .lit v → 2 ^ 256 ≤ v → step s = .fault (.literalTooWide v))) ∧
  (∀ (s : State) (l : HostLine) (m : List Char), s.script = [] → s.awaiting = none → s.program[s.line]? = some l →
    (∀ x ∈ lineSources l, readable s.temps x) → jumpLabel s l = some m → .label m ∉ s.program → step s = .fault (.labelMissing m)) ∧
  (∀ (s : State) (n : Nat), s.script = [] → s.awaiting = some n → s.phase = .resp → s.err = false → lookupTemp n s.temps ≠ none →
    step s = .fault (.temporaryDefinedTwice n))

/-- R172: a reset edge leaves the host's program, line and script where they are and makes the sequencer stop awaiting (log 13; its records begin
again, log 10), so after a reset the step that follows presents the line's command again, whatever was in flight before. -/
def Obligations.ResetMakesSequencerReissue : Prop :=
  (∀ (d : Drive) (s t : State), d.rst = true → edge d s = .next t →
    t = { s with phase := .idle, issued := [], delivered := [], awaiting := none }) ∧
  (∀ (d : Drive) (s : State) (n : Nat) (x y : Source) (a b : Word), s.script = [d] → d.rst = true → usesNothing d →
    sourceValue s.temps x = .ok a → sourceValue s.temps y = .ok b →
    (s.program[s.line]? = some (.fadd n x y) →
      ∃ t, runSteps 2 s = .next t ∧ t.phase = .busy ∧ t.issued = [⟨0b00#2, a, b⟩] ∧ t.awaiting = some n ∧ t.line = s.line) ∧
    (s.program[s.line]? = some (.fsub n x y) →
      ∃ t, runSteps 2 s = .next t ∧ t.phase = .busy ∧ t.issued = [⟨0b01#2, a, b⟩] ∧ t.awaiting = some n ∧ t.line = s.line) ∧
    (s.program[s.line]? = some (.fmul n x y) →
      ∃ t, runSteps 2 s = .next t ∧ t.phase = .busy ∧ t.issued = [⟨0b10#2, a, b⟩] ∧ t.awaiting = some n ∧ t.line = s.line) ∧
    (s.program[s.line]? = some (.finv n x) →
      ∃ t, runSteps 2 s = .next t ∧ t.phase = .busy ∧ t.issued = [⟨0b11#2, a, 0⟩] ∧ t.awaiting = some n ∧ t.line = s.line))
end

