-- ==== Sys2Proof/Laws/Arith.lean ====
section
/-! SUPPORT. The arithmetic of residues: bounds of P, `canon`, `residueWord`, and the value of `powMod`. -/

-- One theorem at a time: a thread for each theorem costs memory the sandbox does not have.
set_option Elab.async false

namespace Sys2Proof.Machine

/-- R11: `P = 2^256 - 2^32 - 977`. -/
theorem P_eq : P = 2 ^ 256 - 2 ^ 32 - 977 := by decide +kernel

theorem P_pos : 0 < P := by decide +kernel

theorem one_lt_P : 1 < P := by decide +kernel

theorem P_lt_word : P < 2 ^ 256 := by decide +kernel

theorem word_lt_two_P : 2 ^ 256 < 2 * P := by decide +kernel

theorem canon_lt (v : Word) : canon v < P := Nat.mod_lt _ P_pos

theorem canon_of_lt {v : Word} (h : v.toNat < P) : canon v = v.toNat := Nat.mod_eq_of_lt h

/-- R92: a non-canonical word stands for itself less P. -/
theorem canon_of_ge {v : Word} (h : P ≤ v.toNat) : canon v = v.toNat - P := by
  have hv : v.toNat < 2 * P := lt_trans v.isLt word_lt_two_P
  rw [canon, Nat.mod_eq_sub_mod h, Nat.mod_eq_of_lt (by omega)]

theorem toNat_ofNat_of_lt_P {n : Nat} (h : n < P) : (BitVec.ofNat 256 n).toNat = n := by
  rw [BitVec.toNat_ofNat, Nat.mod_eq_of_lt (lt_trans h P_lt_word)]

theorem emod_P_nonneg (z : Int) : 0 ≤ z % (P : Int) := Int.emod_nonneg _ (by exact_mod_cast P_pos.ne')

theorem emod_P_toNat_lt (z : Int) : (z % (P : Int)).toNat < P := by
  have h := Int.emod_lt_of_pos z (b := (P : Int)) (by exact_mod_cast P_pos)
  have := emod_P_nonneg z
  omega

/-- The number of a residue word (R15). -/
theorem residueWord_toNat (z : Int) : (residueWord z).toNat = (z % (P : Int)).toNat :=
  toNat_ofNat_of_lt_P (emod_P_toNat_lt z)

/-- The same as an integer. -/
@[simp] theorem residueWord_toInt (z : Int) : ((residueWord z).toNat : Int) = z % (P : Int) := by
  rw [residueWord_toNat, Int.toNat_of_nonneg (emod_P_nonneg z)]

theorem residueWord_lt (z : Int) : (residueWord z).toNat < P := by
  rw [residueWord_toNat]; exact emod_P_toNat_lt z

/-- A residue word is canonical. -/
@[simp] theorem canon_residueWord (z : Int) : (canon (residueWord z) : Int) = z % (P : Int) := by
  rw [canon_of_lt (residueWord_lt z), residueWord_toInt]

/-- The residue of a word as an integer remainder. -/
theorem canon_toInt (v : Word) : (canon v : Int) = (v.toNat : Int) % (P : Int) := by
  simp [canon]

/-- Two integers with one residue have one residue word. -/
theorem residueWord_congr {y z : Int} (h : y % (P : Int) = z % (P : Int)) : residueWord y = residueWord z := by
  simp [residueWord, h]

theorem residueWord_inj {y z : Int} : residueWord y = residueWord z ↔ y % (P : Int) = z % (P : Int) :=
  ⟨fun h => by rw [← residueWord_toInt, h, residueWord_toInt], residueWord_congr⟩

/-- Binary exponentiation computes the power, for an exponent of at most `k` bits (R130, R134). -/
theorem powMod_eq (m : Nat) : ∀ k x e, e < 2 ^ k → powMod m k x e = x ^ e % m
  | 0, x, e, h => by
    have : e = 0 := by simpa using h
    simp [powMod, this]
  | k + 1, x, e, h => by
    have hk : e / 2 < 2 ^ k := by rw [Nat.pow_succ] at h; omega
    have ih := powMod_eq m k (x * x % m) (e / 2) hk
    have hsq : (x * x % m) ^ (e / 2) % m = (x ^ 2) ^ (e / 2) % m := by rw [← Nat.pow_mod, pow_two]
    rw [powMod, ih, hsq, ← pow_mul]
    split
    · next ho =>
      rw [Nat.mul_mod_mod, ← pow_succ', show 2 * (e / 2) + 1 = e by omega]
    · next he => rw [show 2 * (e / 2) = e by omega]

end Sys2Proof.Machine
end

