-- ==== Sys2Proof/Laws/Decode.lean ====
section
/-! SUPPORT. The fields of a command word built from its fields (30_encoding.md R70). -/

namespace Sys2Proof

theorem opField_commandWord (op : BitVec 2) (a b : Word) : opField (commandWord op a b) = op := by
  apply BitVec.eq_of_getLsbD_eq
  intro i hi
  simp only [opField, commandWord, BitVec.getLsbD_extractLsb', BitVec.getLsbD_append, hi, decide_true, Bool.true_and]
  rw [if_neg (by omega), if_neg (by omega)]
  rw [show 512 + i - 256 - 256 = i by omega]

theorem aField_commandWord (op : BitVec 2) (a b : Word) : aField (commandWord op a b) = a := by
  apply BitVec.eq_of_getLsbD_eq
  intro i hi
  simp only [aField, commandWord, BitVec.getLsbD_extractLsb', BitVec.getLsbD_append, hi, decide_true, Bool.true_and]
  rw [if_neg (by omega), if_pos (by omega)]
  rw [show 256 + i - 256 = i by omega]

theorem bField_commandWord (op : BitVec 2) (a b : Word) : bField (commandWord op a b) = b := by
  apply BitVec.eq_of_getLsbD_eq
  intro i hi
  simp only [bField, commandWord, BitVec.getLsbD_extractLsb', BitVec.getLsbD_append, hi, decide_true, Bool.true_and]
  rw [if_pos (by omega)]
  rw [Nat.zero_add]

/-- A command word is made of its three fields. -/
theorem commandWord_fields (c : CommandWord) : commandWord (opField c) (aField c) (bField c) = c := by
  apply BitVec.eq_of_getLsbD_eq
  intro i hi
  simp only [opField, aField, bField, commandWord, BitVec.getLsbD_append, BitVec.getLsbD_extractLsb']
  split
  · simp [*]
  · split
    · simp [*]; rw [show 256 + (i - 256) = i by omega, BitVec.getLsbD_eq_getElem hi]
    · have : i - 256 - 256 < 2 := by omega
      simp [*]; rw [show 512 + (i - 256 - 256) = i by omega, BitVec.getLsbD_eq_getElem hi]

end Sys2Proof
end

