-- ==== Sys2Proof/Laws/State.lean ====
section
/-! SUPPORT. What each update of the state writes and leaves, one lemma per field. -/

-- One theorem at a time: a thread for each theorem costs memory the sandbox does not have.
set_option Elab.async false

namespace Sys2Proof.Machine

@[simp] theorem issue_phase (c : Command) (s : State) : (issue c s).phase = .busy := rfl
@[simp] theorem issue_opc (c : Command) (s : State) : (issue c s).opc = c.op := rfl
@[simp] theorem issue_opa (c : Command) (s : State) : (issue c s).opa = c.a := rfl
@[simp] theorem issue_opb (c : Command) (s : State) : (issue c s).opb = c.b := rfl
@[simp] theorem issue_res (c : Command) (s : State) : (issue c s).res = s.res := rfl
@[simp] theorem issue_err (c : Command) (s : State) : (issue c s).err = s.err := rfl
@[simp] theorem issue_latencyLeft (c : Command) (s : State) : (issue c s).latencyLeft = latency s.draws c := rfl
@[simp] theorem issue_draws (c : Command) (s : State) : (issue c s).draws = s.draws + 1 := rfl
@[simp] theorem issue_script (c : Command) (s : State) : (issue c s).script = s.script := rfl
@[simp] theorem issue_issued (c : Command) (s : State) : (issue c s).issued = s.issued ++ [c] := rfl
@[simp] theorem issue_delivered (c : Command) (s : State) : (issue c s).delivered = s.delivered := rfl
@[simp] theorem issue_lastErr (c : Command) (s : State) : (issue c s).lastErr = s.lastErr := rfl
@[simp] theorem issue_program (c : Command) (s : State) : (issue c s).program = s.program := rfl
@[simp] theorem issue_line (c : Command) (s : State) : (issue c s).line = s.line := rfl
@[simp] theorem issue_awaiting (c : Command) (s : State) : (issue c s).awaiting = s.awaiting := rfl
@[simp] theorem issue_temps (c : Command) (s : State) : (issue c s).temps = s.temps := rfl

@[simp] theorem waitEdge_phase (s : State) : (waitEdge s).phase = s.phase := rfl
@[simp] theorem waitEdge_opc (s : State) : (waitEdge s).opc = s.opc := rfl
@[simp] theorem waitEdge_opa (s : State) : (waitEdge s).opa = s.opa := rfl
@[simp] theorem waitEdge_opb (s : State) : (waitEdge s).opb = s.opb := rfl
@[simp] theorem waitEdge_res (s : State) : (waitEdge s).res = s.res := rfl
@[simp] theorem waitEdge_err (s : State) : (waitEdge s).err = s.err := rfl
@[simp] theorem waitEdge_latencyLeft (s : State) : (waitEdge s).latencyLeft = s.latencyLeft - 1 := rfl
@[simp] theorem waitEdge_draws (s : State) : (waitEdge s).draws = s.draws := rfl
@[simp] theorem waitEdge_script (s : State) : (waitEdge s).script = s.script := rfl
@[simp] theorem waitEdge_issued (s : State) : (waitEdge s).issued = s.issued := rfl
@[simp] theorem waitEdge_delivered (s : State) : (waitEdge s).delivered = s.delivered := rfl
@[simp] theorem waitEdge_lastErr (s : State) : (waitEdge s).lastErr = s.lastErr := rfl
@[simp] theorem waitEdge_program (s : State) : (waitEdge s).program = s.program := rfl
@[simp] theorem waitEdge_line (s : State) : (waitEdge s).line = s.line := rfl
@[simp] theorem waitEdge_awaiting (s : State) : (waitEdge s).awaiting = s.awaiting := rfl
@[simp] theorem waitEdge_temps (s : State) : (waitEdge s).temps = s.temps := rfl

@[simp] theorem completeOk_phase (r : Word) (s : State) : (completeOk r s).phase = .resp := rfl
@[simp] theorem completeOk_opc (r : Word) (s : State) : (completeOk r s).opc = s.opc := rfl
@[simp] theorem completeOk_opa (r : Word) (s : State) : (completeOk r s).opa = s.opa := rfl
@[simp] theorem completeOk_opb (r : Word) (s : State) : (completeOk r s).opb = s.opb := rfl
@[simp] theorem completeOk_res (r : Word) (s : State) : (completeOk r s).res = r := rfl
@[simp] theorem completeOk_err (r : Word) (s : State) : (completeOk r s).err = false := rfl
@[simp] theorem completeOk_latencyLeft (r : Word) (s : State) : (completeOk r s).latencyLeft = s.latencyLeft := rfl
@[simp] theorem completeOk_draws (r : Word) (s : State) : (completeOk r s).draws = s.draws := rfl
@[simp] theorem completeOk_script (r : Word) (s : State) : (completeOk r s).script = s.script := rfl
@[simp] theorem completeOk_issued (r : Word) (s : State) : (completeOk r s).issued = s.issued := rfl
@[simp] theorem completeOk_delivered (r : Word) (s : State) : (completeOk r s).delivered = s.delivered := rfl
@[simp] theorem completeOk_lastErr (r : Word) (s : State) : (completeOk r s).lastErr = s.lastErr := rfl
@[simp] theorem completeOk_program (r : Word) (s : State) : (completeOk r s).program = s.program := rfl
@[simp] theorem completeOk_line (r : Word) (s : State) : (completeOk r s).line = s.line := rfl
@[simp] theorem completeOk_awaiting (r : Word) (s : State) : (completeOk r s).awaiting = s.awaiting := rfl
@[simp] theorem completeOk_temps (r : Word) (s : State) : (completeOk r s).temps = s.temps := rfl

@[simp] theorem raiseZeroInverse_phase (s : State) : (raiseZeroInverse s).phase = .resp := rfl
@[simp] theorem raiseZeroInverse_opc (s : State) : (raiseZeroInverse s).opc = s.opc := rfl
@[simp] theorem raiseZeroInverse_opa (s : State) : (raiseZeroInverse s).opa = s.opa := rfl
@[simp] theorem raiseZeroInverse_opb (s : State) : (raiseZeroInverse s).opb = s.opb := rfl
@[simp] theorem raiseZeroInverse_res (s : State) : (raiseZeroInverse s).res = Config.freeWord s.draws := rfl
@[simp] theorem raiseZeroInverse_err (s : State) : (raiseZeroInverse s).err = true := rfl
@[simp] theorem raiseZeroInverse_latencyLeft (s : State) : (raiseZeroInverse s).latencyLeft = s.latencyLeft := rfl
@[simp] theorem raiseZeroInverse_draws (s : State) : (raiseZeroInverse s).draws = s.draws + 1 := rfl
@[simp] theorem raiseZeroInverse_script (s : State) : (raiseZeroInverse s).script = s.script := rfl
@[simp] theorem raiseZeroInverse_issued (s : State) : (raiseZeroInverse s).issued = s.issued := rfl
@[simp] theorem raiseZeroInverse_delivered (s : State) : (raiseZeroInverse s).delivered = s.delivered := rfl
@[simp] theorem raiseZeroInverse_lastErr (s : State) : (raiseZeroInverse s).lastErr = s.lastErr := rfl
@[simp] theorem raiseZeroInverse_program (s : State) : (raiseZeroInverse s).program = s.program := rfl
@[simp] theorem raiseZeroInverse_line (s : State) : (raiseZeroInverse s).line = s.line := rfl
@[simp] theorem raiseZeroInverse_awaiting (s : State) : (raiseZeroInverse s).awaiting = s.awaiting := rfl
@[simp] theorem raiseZeroInverse_temps (s : State) : (raiseZeroInverse s).temps = s.temps := rfl

@[simp] theorem consume_phase (s : State) : (consume s).phase = .idle := rfl
@[simp] theorem consume_opc (s : State) : (consume s).opc = s.opc := rfl
@[simp] theorem consume_opa (s : State) : (consume s).opa = s.opa := rfl
@[simp] theorem consume_opb (s : State) : (consume s).opb = s.opb := rfl
@[simp] theorem consume_res (s : State) : (consume s).res = s.res := rfl
@[simp] theorem consume_err (s : State) : (consume s).err = s.err := rfl
@[simp] theorem consume_latencyLeft (s : State) : (consume s).latencyLeft = s.latencyLeft := rfl
@[simp] theorem consume_draws (s : State) : (consume s).draws = s.draws := rfl
@[simp] theorem consume_script (s : State) : (consume s).script = s.script := rfl
@[simp] theorem consume_issued (s : State) : (consume s).issued = s.issued := rfl
@[simp] theorem consume_delivered (s : State) : (consume s).delivered = s.delivered ++ [responseWires s] := rfl
@[simp] theorem consume_lastErr (s : State) : (consume s).lastErr = s.err := rfl
@[simp] theorem consume_program (s : State) : (consume s).program = s.program := rfl
@[simp] theorem consume_line (s : State) : (consume s).line = s.line := rfl
@[simp] theorem consume_awaiting (s : State) : (consume s).awaiting = s.awaiting := rfl
@[simp] theorem consume_temps (s : State) : (consume s).temps = s.temps := rfl

@[simp] theorem resetEdge_phase (s : State) : (resetEdge s).phase = .idle := rfl
@[simp] theorem resetEdge_opc (s : State) : (resetEdge s).opc = s.opc := rfl
@[simp] theorem resetEdge_opa (s : State) : (resetEdge s).opa = s.opa := rfl
@[simp] theorem resetEdge_opb (s : State) : (resetEdge s).opb = s.opb := rfl
@[simp] theorem resetEdge_res (s : State) : (resetEdge s).res = s.res := rfl
@[simp] theorem resetEdge_err (s : State) : (resetEdge s).err = s.err := rfl
@[simp] theorem resetEdge_latencyLeft (s : State) : (resetEdge s).latencyLeft = s.latencyLeft := rfl
@[simp] theorem resetEdge_draws (s : State) : (resetEdge s).draws = s.draws := rfl
@[simp] theorem resetEdge_script (s : State) : (resetEdge s).script = s.script := rfl
@[simp] theorem resetEdge_issued (s : State) : (resetEdge s).issued = [] := rfl
@[simp] theorem resetEdge_delivered (s : State) : (resetEdge s).delivered = [] := rfl
@[simp] theorem resetEdge_lastErr (s : State) : (resetEdge s).lastErr = s.lastErr := rfl
@[simp] theorem resetEdge_program (s : State) : (resetEdge s).program = s.program := rfl
@[simp] theorem resetEdge_line (s : State) : (resetEdge s).line = s.line := rfl
@[simp] theorem resetEdge_awaiting (s : State) : (resetEdge s).awaiting = none := rfl
@[simp] theorem resetEdge_temps (s : State) : (resetEdge s).temps = s.temps := rfl

@[simp] theorem scramble_phase (s : State) : (scramble s).phase = s.phase := rfl
@[simp] theorem scramble_opc (s : State) : (scramble s).opc = (Config.freeWord s.draws).setWidth 2 := rfl
@[simp] theorem scramble_opa (s : State) : (scramble s).opa = Config.freeWord (s.draws + 1) := rfl
@[simp] theorem scramble_opb (s : State) : (scramble s).opb = Config.freeWord (s.draws + 2) := rfl
@[simp] theorem scramble_res (s : State) : (scramble s).res = Config.freeWord (s.draws + 3) := rfl
@[simp] theorem scramble_err (s : State) : (scramble s).err = (Config.freeWord (s.draws + 4)).getLsbD 0 := rfl
@[simp] theorem scramble_latencyLeft (s : State) : (scramble s).latencyLeft = s.latencyLeft := rfl
@[simp] theorem scramble_draws (s : State) : (scramble s).draws = s.draws + 5 := rfl
@[simp] theorem scramble_script (s : State) : (scramble s).script = s.script := rfl
@[simp] theorem scramble_issued (s : State) : (scramble s).issued = s.issued := rfl
@[simp] theorem scramble_delivered (s : State) : (scramble s).delivered = s.delivered := rfl
@[simp] theorem scramble_lastErr (s : State) : (scramble s).lastErr = s.lastErr := rfl
@[simp] theorem scramble_program (s : State) : (scramble s).program = s.program := rfl
@[simp] theorem scramble_line (s : State) : (scramble s).line = s.line := rfl
@[simp] theorem scramble_awaiting (s : State) : (scramble s).awaiting = s.awaiting := rfl
@[simp] theorem scramble_temps (s : State) : (scramble s).temps = s.temps := rfl

/-! `capture` writes only the host's temporaries. -/

@[simp] theorem capture_phase (d : Drive) (s : State) : (capture d s).phase = s.phase := by
  cases h : d.define <;> simp [capture, h]

@[simp] theorem capture_opc (d : Drive) (s : State) : (capture d s).opc = s.opc := by
  cases h : d.define <;> simp [capture, h]

@[simp] theorem capture_opa (d : Drive) (s : State) : (capture d s).opa = s.opa := by
  cases h : d.define <;> simp [capture, h]

@[simp] theorem capture_opb (d : Drive) (s : State) : (capture d s).opb = s.opb := by
  cases h : d.define <;> simp [capture, h]

@[simp] theorem capture_res (d : Drive) (s : State) : (capture d s).res = s.res := by
  cases h : d.define <;> simp [capture, h]

@[simp] theorem capture_err (d : Drive) (s : State) : (capture d s).err = s.err := by
  cases h : d.define <;> simp [capture, h]

@[simp] theorem capture_latencyLeft (d : Drive) (s : State) : (capture d s).latencyLeft = s.latencyLeft := by
  cases h : d.define <;> simp [capture, h]

@[simp] theorem capture_draws (d : Drive) (s : State) : (capture d s).draws = s.draws := by
  cases h : d.define <;> simp [capture, h]

@[simp] theorem capture_script (d : Drive) (s : State) : (capture d s).script = s.script := by
  cases h : d.define <;> simp [capture, h]

@[simp] theorem capture_issued (d : Drive) (s : State) : (capture d s).issued = s.issued := by
  cases h : d.define <;> simp [capture, h]

@[simp] theorem capture_delivered (d : Drive) (s : State) : (capture d s).delivered = s.delivered := by
  cases h : d.define <;> simp [capture, h]

@[simp] theorem capture_lastErr (d : Drive) (s : State) : (capture d s).lastErr = s.lastErr := by
  cases h : d.define <;> simp [capture, h]

@[simp] theorem capture_program (d : Drive) (s : State) : (capture d s).program = s.program := by
  cases h : d.define <;> simp [capture, h]

@[simp] theorem capture_line (d : Drive) (s : State) : (capture d s).line = s.line := by
  cases h : d.define <;> simp [capture, h]

@[simp] theorem capture_awaiting (d : Drive) (s : State) : (capture d s).awaiting = s.awaiting := by
  cases h : d.define <;> simp [capture, h]

theorem capture_of_define_none {d : Drive} (h : d.define = none) (s : State) : capture d s = s := by
  simp [capture, h]

theorem capture_temps_of_define {d : Drive} {n : Nat} (h : d.define = some n) (s : State) :
    (capture d s).temps = insertTemp n s.res s.temps := by
  simp [capture, h]

/-! The wires and the command in flight after an update. -/

@[simp] theorem latched_issue (c : Command) (s : State) : latched (issue c s) = c := rfl
@[simp] theorem latched_waitEdge (s : State) : latched (waitEdge s) = latched s := rfl
@[simp] theorem latched_completeOk (r : Word) (s : State) : latched (completeOk r s) = latched s := rfl
@[simp] theorem latched_raiseZeroInverse (s : State) : latched (raiseZeroInverse s) = latched s := rfl
@[simp] theorem latched_consume (s : State) : latched (consume s) = latched s := rfl
@[simp] theorem latched_resetEdge (s : State) : latched (resetEdge s) = latched s := rfl
@[simp] theorem latched_capture (d : Drive) (s : State) : latched (capture d s) = latched s := by simp [latched]
@[simp] theorem responseWires_capture (d : Drive) (s : State) : responseWires (capture d s) = responseWires s := by
  simp [responseWires]

end Sys2Proof.Machine
end

