-- ==== Sys2Proof/Laws/Outcome.lean ====
section
/-! SUPPORT. What a completion does, and the commands' outcomes, said once (00_scope.md R17; 10_state.md R31). -/

-- One theorem at a time: a thread for each theorem costs memory the sandbox does not have.
set_option Elab.async false

namespace Sys2Proof.Machine

/-- Every command completes with the outcome of R17. -/
theorem exec_eq (i : Instr) (s : State) : exec i s = .next (complete (outcomeOf i) s) := by
  cases i <;> rfl

theorem complete_ok (r : Word) (s : State) : complete (.ok r) s = completeOk r s := rfl

theorem complete_zeroInverse (s : State) : complete .zeroInverse s = raiseZeroInverse s := rfl

@[simp] theorem complete_phase (o : ExecOutcome) (s : State) : (complete o s).phase = .resp := by cases o <;> rfl

@[simp] theorem complete_err (o : ExecOutcome) (s : State) : (complete o s).err = errFlag o := by cases o <;> rfl

@[simp] theorem latched_complete (o : ExecOutcome) (s : State) : latched (complete o s) = latched s := by cases o <;> rfl

/-- What a completion leaves unchanged (R31). -/
theorem complete_frame (o : ExecOutcome) (s : State) :
    (complete o s).latencyLeft = s.latencyLeft ∧ (complete o s).script = s.script ∧ (complete o s).issued = s.issued ∧
    (complete o s).delivered = s.delivered ∧ (complete o s).lastErr = s.lastErr ∧ (complete o s).program = s.program ∧
    (complete o s).line = s.line ∧ (complete o s).awaiting = s.awaiting ∧ (complete o s).temps = s.temps := by
  cases o <;> simp [complete]

/-- The response wires after a completion encode its outcome. -/
@[simp] theorem responseOutcome_complete (o : ExecOutcome) (s : State) :
    responseOutcome (responseWires (complete o s)) = o := by cases o <;> rfl

/-- A command answers `r` exactly when its outcome is `Ok(r)`. -/
theorem answers_iff {i : Instr} {r : Word} : answers i r ↔ outcomeOf i = .ok r := by
  constructor
  · intro h
    obtain ⟨t, ht, -, he, hr⟩ := h State.reset
    rw [exec_eq] at ht
    injection ht with ht
    subst ht
    cases ho : outcomeOf i with
    | ok x => rw [ho] at hr; exact congrArg _ hr
    | zeroInverse => rw [ho] at he; cases he
  · intro h s
    exact ⟨_, exec_eq i s, complete_phase _ _, by rw [complete_err, h]; rfl, by rw [h]; rfl⟩

theorem answersZeroInverse_iff {i : Instr} : answersZeroInverse i ↔ outcomeOf i = .zeroInverse := by
  constructor
  · intro h
    obtain ⟨t, ht, -, he⟩ := h State.reset
    rw [exec_eq] at ht
    injection ht with ht
    subst ht
    cases ho : outcomeOf i with
    | ok x => rw [ho] at he; cases he
    | zeroInverse => rfl
  · intro h s
    exact ⟨_, exec_eq i s, complete_phase _ _, by rw [complete_err, h]; rfl⟩

/-- The number of an answer is at most `P - 1`, since the exponent of FINV has 256 bits. -/
theorem powMod_inverse (x : Nat) : powMod P 256 x (P - 2) = x ^ (P - 2) % P :=
  powMod_eq P 256 x (P - 2) (lt_of_le_of_lt (Nat.sub_le _ _) P_lt_word)

theorem outcomeOf_fadd (a b : Word) : outcomeOf (.fadd a b) = .ok (residueWord (canon a + canon b)) := rfl

theorem outcomeOf_fsub (a b : Word) : outcomeOf (.fsub a b) = .ok (residueWord (canon a - canon b)) := rfl

theorem outcomeOf_fmul (a b : Word) : outcomeOf (.fmul a b) = .ok (residueWord (canon a * canon b)) := rfl

theorem outcomeOf_finv_zero {a : Word} (h : canon a = 0) : outcomeOf (.finv a) = .zeroInverse := by
  simp [outcomeOf, finvOutcome, h]

theorem outcomeOf_finv_ok {a : Word} (h : canon a ≠ 0) :
    outcomeOf (.finv a) = .ok (BitVec.ofNat 256 (canon a ^ (P - 2) % P)) := by
  simp only [outcomeOf, finvOutcome, h, if_false, powMod_inverse]

/-- The word of an `Ok` outcome lies in Fp (R17). -/
theorem outcome_lt {i : Instr} {r : Word} (h : outcomeOf i = .ok r) : r.toNat < P := by
  cases i with
  | fadd a b => cases h; exact residueWord_lt _
  | fsub a b => cases h; exact residueWord_lt _
  | fmul a b => cases h; exact residueWord_lt _
  | finv a =>
    by_cases hz : canon a = 0
    · rw [outcomeOf_finv_zero hz] at h; cases h
    · rw [outcomeOf_finv_ok hz] at h
      cases h
      have hlt := Nat.mod_lt (canon a ^ (P - 2)) P_pos
      rw [toNat_ofNat_of_lt_P hlt]; exact hlt

end Sys2Proof.Machine
end

