-- ==== Sys2Proof/Laws/Temps.lean ====
section
/-! SUPPORT. The host's temporaries: reading back what was defined, and the canonical form. -/

namespace Sys2Proof.Machine

/-- A temporary just defined has the value it was given. -/
@[simp] theorem lookupTemp_insertTemp_same (n : Nat) (v : Word) (ts : List (Nat × Word)) :
    lookupTemp n (insertTemp n v ts) = some v := by
  induction ts with
  | nil => simp [insertTemp, lookupTemp]
  | cons t ts ih =>
    obtain ⟨k, w⟩ := t
    unfold insertTemp
    split
    · simp [lookupTemp]
    · split
      · simp [lookupTemp]
      · next h => rw [lookupTemp, if_neg (fun hk => h hk.symm), ih]

/-- Defining a temporary leaves every other one alone. -/
theorem lookupTemp_insertTemp_other {m n : Nat} (h : m ≠ n) (v : Word) (ts : List (Nat × Word)) :
    lookupTemp m (insertTemp n v ts) = lookupTemp m ts := by
  induction ts with
  | nil => simp [insertTemp, lookupTemp, Ne.symm h]
  | cons t ts ih =>
    obtain ⟨k, w⟩ := t
    unfold insertTemp
    split
    · simp [lookupTemp, Ne.symm h]
    · split
      · next hk => subst hk; simp [lookupTemp, Ne.symm h]
      · simp [lookupTemp, ih]

theorem mem_insertTemp_fst {n : Nat} {v : Word} {ts : List (Nat × Word)} {x : Nat}
    (h : x ∈ (insertTemp n v ts).map Prod.fst) : x = n ∨ x ∈ ts.map Prod.fst := by
  induction ts with
  | nil => simpa [insertTemp] using h
  | cons t ts ih =>
    obtain ⟨k, w⟩ := t
    unfold insertTemp at h
    split at h
    · simpa using h
    · split at h
      · rcases List.mem_cons.1 h with rfl | h
        · exact .inl rfl
        · exact .inr (List.mem_cons_of_mem _ h)
      · rcases List.mem_cons.1 h with rfl | h
        · exact .inr (by simp)
        · exact (ih h).imp id (List.mem_cons_of_mem _)

/-- Defining a temporary keeps the canonical form. -/
theorem tempsCanonical_insertTemp {ts : List (Nat × Word)} (h : tempsCanonical ts) (n : Nat) (v : Word) :
    tempsCanonical (insertTemp n v ts) := by
  induction ts with
  | nil => simp [insertTemp, tempsCanonical]
  | cons t ts ih =>
    obtain ⟨k, w⟩ := t
    simp only [tempsCanonical, List.map_cons, List.pairwise_cons] at h
    unfold insertTemp
    split
    · next hn =>
      simp only [tempsCanonical, List.map_cons, List.pairwise_cons]
      refine ⟨fun x hx => ?_, h⟩
      rcases List.mem_cons.1 hx with rfl | hx
      · exact hn
      · exact lt_trans hn (h.1 x hx)
    · split
      · next hk => subst hk; simpa [tempsCanonical, List.pairwise_cons] using h
      · next hn hk =>
        simp only [tempsCanonical, List.map_cons, List.pairwise_cons]
        refine ⟨fun x hx => ?_, ih h.2⟩
        rcases mem_insertTemp_fst hx with rfl | hx
        · exact lt_of_le_of_ne (not_lt.1 hn) (Ne.symm hk)
        · exact h.1 x hx

/-- Storing what a cycle defines keeps the canonical form. -/
theorem tempsCanonical_capture (d : Drive) {s : State} (h : tempsCanonical s.temps) : tempsCanonical (capture d s).temps := by
  unfold capture
  split
  · exact h
  · exact tempsCanonical_insertTemp h _ _

theorem tempsCanonical_reset : tempsCanonical State.reset.temps := by simp [tempsCanonical, State.reset]

end Sys2Proof.Machine
end

