-- ==== Sys2Proof/Laws/Edge.lean ====
section
/-! SUPPORT. Everything an edge and a step can do, said once: the inversions the invariants are derived from. -/

-- One theorem at a time: a thread for each theorem costs memory the sandbox does not have.
set_option Elab.async false

namespace Sys2Proof.Machine

/-- What the state machine can do at an edge (R31, R33, R34). -/
theorem clock_cases {d : Drive} {s t : State} (h : clock d s = .next t) :
    (d.rst = true ∧ t = resetEdge s) ∨
    (d.rst = false ∧ s.phase = .unreset ∧ d.cmdValid = false ∧ d.rspReady = false ∧ t = scramble s) ∨
    (d.rst = false ∧ s.phase = .idle ∧ d.cmdValid = true ∧ t = issue (presented d) s) ∨
    (d.rst = false ∧ s.phase = .idle ∧ d.cmdValid = false ∧ t = s) ∨
    (d.rst = false ∧ s.phase = .busy ∧ 1 < s.latencyLeft ∧ t = waitEdge s) ∨
    (d.rst = false ∧ s.phase = .busy ∧ s.latencyLeft ≤ 1 ∧ t = complete (commandOutcome (latched s)) s) ∨
    (d.rst = false ∧ s.phase = .resp ∧ d.rspReady = true ∧ t = consume s) ∨
    (d.rst = false ∧ s.phase = .resp ∧ d.rspReady = false ∧ t = s) := by
  unfold clock at h
  cases hr : d.rst with
  | true => simp only [hr, if_true] at h; injection h with h; exact .inl ⟨rfl, h.symm⟩
  | false =>
    simp only [hr, if_false, Bool.false_eq_true] at h
    cases hp : s.phase with
    | unreset =>
      simp only [hp] at h
      cases hv : d.cmdValid <;> cases hy : d.rspReady <;> simp_all
    | idle =>
      simp only [hp] at h
      injection h with h
      cases hv : d.cmdValid <;> simp_all [presented]
    | busy =>
      simp only [hp, latencyElapsed, exec_eq] at h
      by_cases hl : s.latencyLeft ≤ 1
      · simp only [hl, decide_true, if_true] at h
        injection h with h
        simp [hl, ← h, commandOutcome]
      · simp only [hl, decide_false, Bool.false_eq_true, if_false] at h
        injection h with h
        simp [hl, ← h, Nat.lt_of_not_le hl]
    | resp =>
      simp only [hp] at h
      injection h with h
      cases hy : d.rspReady <;> simp_all

/-- When an edge answers a next state, the host's uses were sound and the state machine made the edge. -/
theorem edge_next {d : Drive} {s t : State} (h : edge d s = .next t) :
    (s.phase = .unreset → usesResponse d = false) ∧ readFault d s = none ∧ clock d (capture d s) = .next t := by
  unfold edge at h
  split at h
  · cases h
  · next hu =>
    split at h
    · cases h
    · next hf => exact ⟨fun hp => by simpa [hp] using hu, hf, h⟩

/-- A cycle that uses no response wire: the edge is the state machine's alone. -/
theorem edge_of_usesNothing {d : Drive} (h : usesNothing d) (s : State) : edge d s = clock d s := by
  simp only [usesNothing, usesResponse, Bool.or_eq_false_iff] at h
  obtain ⟨⟨he, hd⟩, hn⟩ := h
  have hn : d.define = none := by simpa using hn
  simp [edge, usesResponse, readFault, he, hd, hn, capture]

/-- What a sound use of the wires amounts to (R50, R79, R175). -/
theorem readFault_eq_none {d : Drive} {s : State} : readFault d s = none ↔
    (d.readErr = true → rspValid d.rst s = true) ∧ (d.readData = true → rspValid d.rst s = true ∧ s.err = false) ∧
    (∀ n, d.define = some n → rspValid d.rst s = true ∧ s.err = false ∧ lookupTemp n s.temps = none) := by
  unfold readFault
  cases he : d.readErr <;> cases hd : d.readData <;> cases hv : rspValid d.rst s <;> cases hs : s.err <;>
    cases hn : d.define <;> simp [Option.isSome_iff_ne_none]

/-- A cycle that defines a temporary stands in RESP and does not reset (R50). -/
theorem phase_of_define {d : Drive} {s : State} {n : Nat} (h : readFault d s = none) (hn : d.define = some n) :
    s.phase = .resp ∧ d.rst = false ∧ s.err = false := by
  obtain ⟨hv, he, -⟩ := (readFault_eq_none.1 h).2.2 n hn
  simp only [rspValid, Bool.and_eq_true, decide_eq_true_eq, Bool.not_eq_true'] at hv
  exact ⟨hv.1, hv.2, he⟩

/-- No edge moves the host's sequencer. -/
theorem edge_line {d : Drive} {s t : State} (h : edge d s = .next t) : t.line = s.line := by
  obtain ⟨-, -, hc⟩ := edge_next h
  rcases clock_cases hc with ⟨-, rfl⟩ | ⟨-, -, -, -, rfl⟩ | ⟨-, -, -, rfl⟩ | ⟨-, -, -, rfl⟩ | ⟨-, -, -, rfl⟩ | ⟨-, -, -, rfl⟩ |
    ⟨-, -, -, rfl⟩ | ⟨-, -, -, rfl⟩ <;> simp [(complete_frame _ _).2.2.2.2.2.2.1]

/-- A step is an edge under some cycle of the host, from a state whose FAU is the same and where only the host has moved on. -/
theorem step_edge {s t : State} (h : step s = .next t) :
    ∃ d u, edge d u = .next t ∧ (u = { s with script := u.script, line := u.line, awaiting := u.awaiting }) := by
  unfold step at h
  split at h
  · exact ⟨_, _, h, rfl⟩
  · next hs =>
    split at h
    · next d u hp =>
      refine ⟨d, u, h, ?_⟩
      have hj : ∀ l, jumpTo l s = .drive d u → u = { s with script := u.script, line := u.line, awaiting := u.awaiting } := by
        intro l hl
        unfold jumpTo at hl
        split at hl
        · cases hl; rfl
        · cases hl
      have hpr : ∀ n c, present n c s = .drive d u → u = { s with script := u.script, line := u.line, awaiting := u.awaiting } := by
        intro n c hl
        unfold present at hl
        split at hl
        · cases hl
        · injection hl with _ hl
          split at hl <;> (subst hl; rfl)
      unfold plan at hp
      split at hp
      · split at hp <;> (cases hp; rfl)
      · split at hp
        · next l _ =>
          cases l with
          | fadd n x y => exact hpr _ _ hp
          | fsub n x y => exact hpr _ _ hp
          | fmul n x y => exact hpr _ _ hp
          | finv n x => exact hpr _ _ hp
          | brerr l =>
            simp only [runLine] at hp
            split at hp
            · exact hj _ hp
            · cases hp; rfl
          | brz n l =>
            simp only [runLine] at hp
            split at hp
            · cases hp
            · split at hp
              · exact hj _ hp
              · cases hp; rfl
          | brnz n l =>
            simp only [runLine] at hp
            split at hp
            · cases hp
            · split at hp
              · cases hp; rfl
              · exact hj _ hp
          | halt => cases hp; rfl
          | label l => cases hp; rfl
        · injection hp with _ hp; subst hp; rfl
    · cases h

end Sys2Proof.Machine
end

