-- ==== Sys2Proof/Laws/PerInstr.lean ====
section
/-! SUPPORT. Per-instruction families about the commands as syntax. -/

namespace Sys2Proof.Laws.OpField

/-- The `op` field of a command's word is its operation code and the `a` field its first operand (30_encoding.md R70, R71). -/
def Statement (i : Instr) : Prop := opField (encode i) = opcodeOf i ∧ aField (encode i) = operandA i

theorem fadd (a b : Word) : Statement (.fadd a b) := by simp [Statement, encode, opField_commandWord, aField_commandWord]

theorem fsub (a b : Word) : Statement (.fsub a b) := by simp [Statement, encode, opField_commandWord, aField_commandWord]

theorem fmul (a b : Word) : Statement (.fmul a b) := by simp [Statement, encode, opField_commandWord, aField_commandWord]

theorem finv (a : Word) : Statement (.finv a) := by simp [Statement, encode, opField_commandWord, aField_commandWord]

end Sys2Proof.Laws.OpField
end

