-- ==== Sys2Proof/Laws/Prime.lean ====
section
/-! SUPPORT. P is prime (00_scope.md R2, R11: 'The source calls P "prime"'), by Lucas certificates down to primes that norm_num sees. -/

-- One theorem at a time: a thread for each theorem costs memory the sandbox does not have.
set_option Elab.async false

namespace Sys2Proof.Machine

/-- Lucas: `n` is prime if `g` has order `n - 1` modulo `n`; the orders are checked by `powMod` on numerals. -/
theorem prime_of_certificate (n g k : Nat) (fs : List Nat) (hn : 1 < n) (hk : n - 1 < 2 ^ k) (hprod : fs.prod = n - 1)
    (hprime : ∀ q ∈ fs, q.Prime) (hone : powMod n k g (n - 1) = 1)
    (hne : ∀ q ∈ fs, powMod n k g ((n - 1) / q) ≠ 1) : n.Prime := by
  have : Fact (1 < n) := ⟨hn⟩
  have cast_pow : ∀ e, e < 2 ^ k → (((g : ZMod n)) ^ e = 1 ↔ powMod n k g e = 1) := by
    intro e he
    rw [powMod_eq n k g e he, ← Nat.cast_pow, ← Nat.cast_one, ZMod.natCast_eq_natCast_iff, Nat.ModEq, Nat.mod_eq_of_lt hn]
  refine lucas_primality n (g : ZMod n) ((cast_pow _ hk).2 hone) fun q hq hdvd => ?_
  have hmem : q ∈ fs := by
    rw [← hprod] at hdvd
    obtain ⟨r, hr, hqr⟩ := (Prime.dvd_prod_iff hq.prime).1 hdvd
    rwa [(Nat.prime_dvd_prime_iff_eq hq (hprime r hr)).1 hqr]
  have he : (n - 1) / q < 2 ^ k := lt_of_le_of_lt (Nat.div_le_self _ _) hk
  exact fun h => hne q hmem ((cast_pow _ he).1 h)

theorem prime_13331831 : Nat.Prime 13331831 := by
  refine prime_of_certificate 13331831 13 24 [2, 5, 971, 1373] (by decide +kernel) (by decide +kernel) (by decide +kernel) ?_ (by decide +kernel) (by decide +kernel)
  intro q hq
  fin_cases hq
  · norm_num
  · norm_num
  · norm_num
  · norm_num

theorem prime_bits58 : Nat.Prime 173378833005251801 := by
  refine prime_of_certificate 173378833005251801 6 58 [2, 2, 2, 5, 5, 2621, 24809, 13331831] (by decide +kernel) (by decide +kernel) (by decide +kernel) ?_ (by decide +kernel) (by decide +kernel)
  intro q hq
  fin_cases hq
  · norm_num
  · norm_num
  · norm_num
  · norm_num
  · norm_num
  · norm_num
  · norm_num
  · exact prime_13331831

theorem prime_bits75 : Nat.Prime 22149492674086928081353 := by
  refine prime_of_certificate 22149492674086928081353 5 75 [2, 2, 2, 3, 5323, 173378833005251801] (by decide +kernel) (by decide +kernel) (by decide +kernel) ?_ (by decide +kernel) (by decide +kernel)
  intro q hq
  fin_cases hq
  · norm_num
  · norm_num
  · norm_num
  · norm_num
  · norm_num
  · exact prime_bits58

theorem prime_bits77 : Nat.Prime 132896956044521568488119 := by
  refine prime_of_certificate 132896956044521568488119 6 77 [2, 3, 22149492674086928081353] (by decide +kernel) (by decide +kernel) (by decide +kernel) ?_ (by decide +kernel) (by decide +kernel)
  intro q hq
  fin_cases hq
  · norm_num
  · norm_num
  · exact prime_bits75

theorem prime_107590001 : Nat.Prime 107590001 := by
  refine prime_of_certificate 107590001 3 27 [2, 2, 2, 2, 5, 5, 5, 5, 7, 29, 53] (by decide +kernel) (by decide +kernel) (by decide +kernel) ?_ (by decide +kernel) (by decide +kernel)
  intro q hq
  fin_cases hq
  · norm_num
  · norm_num
  · norm_num
  · norm_num
  · norm_num
  · norm_num
  · norm_num
  · norm_num
  · norm_num
  · norm_num
  · norm_num

theorem prime_bits128 : Nat.Prime 255515944373312847190720520512484175977 := by
  refine prime_of_certificate 255515944373312847190720520512484175977 3 128 [2, 2, 2, 7, 7, 11, 1627, 2657, 4423, 41201, 96557, 7240687, 107590001] (by decide +kernel) (by decide +kernel) (by decide +kernel) ?_ (by decide +kernel) (by decide +kernel)
  intro q hq
  fin_cases hq
  · norm_num
  · norm_num
  · norm_num
  · norm_num
  · norm_num
  · norm_num
  · norm_num
  · norm_num
  · norm_num
  · norm_num
  · norm_num
  · norm_num
  · exact prime_107590001

theorem prime_bits237 : Nat.Prime 205115282021455665897114700593932402728804164701536103180137503955397371 := by
  refine prime_of_certificate 205115282021455665897114700593932402728804164701536103180137503955397371 10 237 [2, 3, 5, 29, 29, 31, 7723, 132896956044521568488119, 255515944373312847190720520512484175977] (by decide +kernel) (by decide +kernel) (by decide +kernel) ?_ (by decide +kernel) (by decide +kernel)
  intro q hq
  fin_cases hq
  · norm_num
  · norm_num
  · norm_num
  · norm_num
  · norm_num
  · norm_num
  · norm_num
  · exact prime_bits77
  · exact prime_bits128

/-- R2, R11: the modulus is prime. -/
theorem P_prime : Nat.Prime P := by
  refine prime_of_certificate P 3 256 [2, 3, 7, 13441, 205115282021455665897114700593932402728804164701536103180137503955397371] (by decide +kernel) (by decide +kernel) (by decide +kernel) ?_ (by decide +kernel) (by decide +kernel)
  intro q hq
  fin_cases hq
  · norm_num
  · norm_num
  · norm_num
  · norm_num
  · exact prime_bits237

end Sys2Proof.Machine
end

