-- ==== Sys2Proof/Laws/Sequencer.lean ====
section
/-! SUPPORT. What the sequencer reads in a program: the values of sources and the lines of labels. -/

namespace Sys2Proof.Machine

/-- A source has a value exactly when it is readable (R79). -/
theorem sourceValue_ok_iff {ts : List (Nat × Word)} {x : Source} : (∃ v, sourceValue ts x = .ok v) ↔ readable ts x := by
  cases x with
  | lit v => simp only [sourceValue, readable, Source.fits]; split <;> simp_all only [Nat.not_lt, decide_true, decide_eq_true_eq] <;> simp; omega
  | temp n => cases h : lookupTemp n ts <;> simp [sourceValue, readable, Source.fits, h]

/-- `labelAt` finds the first line that carries the label. -/
theorem labelAt_some {l : List Char} {p : List HostLine} {k j : Nat} (h : labelAt l k p = some j) :
    ∃ i, j = k + i ∧ firstLabelled l p i := by
  induction p generalizing k with
  | nil => cases h
  | cons a p ih =>
    by_cases ha : a = .label l
    · subst ha
      simp only [labelAt, if_true, Option.some.injEq] at h
      exact ⟨0, by omega, rfl, by simp⟩
    · have h' : labelAt l (k + 1) p = some j := by
        cases a <;> simp_all [labelAt]
      obtain ⟨i, rfl, hi, hlt⟩ := ih h'
      refine ⟨i + 1, by omega, by simpa using hi, fun j hj => ?_⟩
      cases j with
      | zero => simpa using ha
      | succ j => simpa using hlt j (by omega)

/-- `labelAt` finds nothing exactly when no line carries the label. -/
theorem labelAt_none {l : List Char} {p : List HostLine} {k : Nat} : labelAt l k p = none ↔ .label l ∉ p := by
  induction p generalizing k with
  | nil => simp [labelAt]
  | cons a p ih =>
    cases a with
    | label m => by_cases hm : m = l <;> simp [labelAt, hm, ih, Ne.symm, @eq_comm _ l m]
    | _ => simp [labelAt, ih]

/-- A taken jump goes to the first line with the label, and stops by name without one. -/
theorem jumpTo_cases (l : List Char) (s : State) :
    (∃ k, firstLabelled l s.program k ∧ jumpTo l s = .drive Drive.ready { s with line := k }) ∨
    (.label l ∉ s.program ∧ jumpTo l s = .stop (.labelMissing l)) := by
  cases h : labelAt l 0 s.program with
  | none => exact .inr ⟨labelAt_none.1 h, by simp [jumpTo, h]⟩
  | some k =>
    obtain ⟨i, rfl, hi⟩ := labelAt_some h
    exact .inl ⟨_, by simpa using hi, by simp [jumpTo, h]⟩

/-- A source gives a value exactly where it is readable, and a stop elsewhere. -/
theorem sourceValue_cases (ts : List (Nat × Word)) (x : Source) :
    (∃ v, sourceValue ts x = .ok v ∧ readable ts x) ∨
    (∃ f, sourceValue ts x = .error f ∧ ¬ readable ts x) := by
  cases h : sourceValue ts x with
  | ok v => exact .inl ⟨v, rfl, sourceValue_ok_iff.1 ⟨v, h⟩⟩
  | error f => exact .inr ⟨f, rfl, fun hr => by obtain ⟨v, hv⟩ := sourceValue_ok_iff.2 hr; rw [h] at hv; cases hv⟩

/-- What a line makes the sequencer do: where its sources are readable and the jump it takes has a line, it drives a cycle that
holds `rsp_ready = 1`, resets nothing and uses no response wire, and elsewhere it stops. -/
theorem runLine_cases (s : State) (l : HostLine) :
    (∃ d u, runLine s l = .drive d u ∧ usesNothing d ∧ d.rst = false ∧ d.rspReady = true ∧ u.phase = s.phase ∧
      (∀ x ∈ lineSources l, readable s.temps x) ∧ (∀ m, jumpLabel s l = some m → .label m ∈ s.program)) ∨
    (∃ f, runLine s l = .stop f ∧ ¬ ((∀ x ∈ lineSources l, readable s.temps x) ∧ (∀ m, jumpLabel s l = some m → .label m ∈ s.program))) := by
  have hpres : ∀ n i, ∃ d u, present n (.ok i) s = .drive d u ∧ usesNothing d ∧ d.rst = false ∧ d.rspReady = true ∧ u.phase = s.phase := by
    intro n i
    refine ⟨_, _, rfl, rfl, rfl, rfl, ?_⟩
    split <;> rfl
  refine Classical.byContradiction fun hG => ?_
  have two : ∀ n mk x y, lineSources l = [x, y] → jumpLabel s l = none → runLine s l = present n (assemble2 mk s.temps x y) s → False := by
    intro n mk x y hs hj hr
    rcases sourceValue_cases s.temps x with ⟨a, ha, hx⟩ | ⟨f, ha, hx⟩
    · rcases sourceValue_cases s.temps y with ⟨b, hb, hy⟩ | ⟨f, hb, hy⟩
      · obtain ⟨d, u, h1, h2, h3, h4, h5⟩ := hpres n (mk a b)
        exact hG (.inl ⟨d, u, by simp [hr, assemble2, ha, hb, h1], h2, h3, h4, h5, by simp [hs, hx, hy], by simp [hj]⟩)
      · exact hG (.inr ⟨f, by simp [hr, assemble2, ha, hb, present], by simp [hs, hy]⟩)
    · exact hG (.inr ⟨f, by simp [hr, assemble2, ha, present], by simp [hs, hx]⟩)
  have jump : ∀ m, (∀ x ∈ lineSources l, readable s.temps x) → jumpLabel s l = some m → runLine s l = jumpTo m s → False := by
    intro m hs hj hr
    rcases jumpTo_cases m s with ⟨k, hk, h⟩ | ⟨hk, h⟩
    · exact hG (.inl ⟨_, _, hr.trans h, rfl, rfl, rfl, rfl, hs, by simpa [hj] using List.mem_of_getElem? hk.1⟩)
    · exact hG (.inr ⟨_, hr.trans h, by simp [hj, hk]⟩)
  have next : (∀ x ∈ lineSources l, readable s.temps x) → jumpLabel s l = none → runLine s l = nextLine s → False := by
    intro hs hj hr
    exact hG (.inl ⟨_, _, hr, rfl, rfl, rfl, rfl, hs, by simp [hj]⟩)
  cases l with
  | fadd n x y => exact two n _ x y rfl rfl rfl
  | fsub n x y => exact two n _ x y rfl rfl rfl
  | fmul n x y => exact two n _ x y rfl rfl rfl
  | finv n x =>
    rcases sourceValue_cases s.temps x with ⟨a, ha, hx⟩ | ⟨f, ha, hx⟩
    · obtain ⟨d, u, h1, h2, h3, h4, h5⟩ := hpres n (.finv a)
      exact hG (.inl ⟨d, u, by simp [runLine, assemble1, ha, h1], h2, h3, h4, h5, by simp [lineSources, hx], by simp [jumpLabel]⟩)
    · exact hG (.inr ⟨f, by simp [runLine, assemble1, ha, present], by simp [lineSources, hx]⟩)
  | brerr m =>
    cases he : s.lastErr
    · exact next (by simp [lineSources]) (by simp [jumpLabel, he]) (by simp [runLine, he])
    · exact jump m (by simp [lineSources]) (by simp [jumpLabel, he]) (by simp [runLine, he])
  | brz n m =>
    cases hv : lookupTemp n s.temps with
    | none => exact hG (.inr ⟨_, by simp only [runLine, hv]; rfl, by simp [lineSources, readable, hv]⟩)
    | some v =>
      by_cases h0 : v = 0
      · exact jump m (by simp [lineSources, readable, hv, Source.fits]) (by simp only [jumpLabel, hv]; exact if_pos (congrArg some h0)) (by simp only [runLine, hv]; exact if_pos h0)
      · exact next (by simp [lineSources, readable, hv, Source.fits]) (by simp only [jumpLabel, hv]; exact if_neg (fun e => h0 (Option.some.inj e))) (by simp only [runLine, hv]; exact if_neg h0)
  | brnz n m =>
    cases hv : lookupTemp n s.temps with
    | none => exact hG (.inr ⟨_, by simp only [runLine, hv]; rfl, by simp [lineSources, readable, hv]⟩)
    | some v =>
      by_cases h0 : v = 0
      · exact next (by simp [lineSources, readable, hv, Source.fits]) (by simp only [jumpLabel, hv]; exact if_pos (congrArg some h0)) (by simp only [runLine, hv]; exact if_pos h0)
      · exact jump m (by simp [lineSources, readable, hv, Source.fits]) (by simp only [jumpLabel, hv]; exact if_neg (fun e => h0 (Option.some.inj e))) (by simp only [runLine, hv]; exact if_neg h0)
  | halt => exact hG (.inl ⟨_, _, rfl, rfl, rfl, rfl, rfl, by simp [lineSources], by simp [jumpLabel]⟩)
  | label m => exact next (by simp [lineSources]) (by simp [jumpLabel]) rfl

end Sys2Proof.Machine
end

