-- ==== Sys2Proof/Machine/Assembler.lean ====
section
/-! DEFINITION. Reading a program's text: one line of the syntax of 30_encoding.md R79 and R81 as host lines (log 14). -/

namespace Sys2Proof.Machine

/-- The text before `;`: what follows is comment (R79). -/
def stripComment (cs : List Char) : List Char := cs.takeWhile (· != ';')

/-- The tokens of a text: blanks and commas separate, `=` is a token of its own. The second argument is the token begun, last character first. -/
def tokens : List Char → List Char → List (List Char)
  | [], [] => []
  | [], w => [w.reverse]
  | c :: cs, w =>
    if c = ' ' ∨ c = ',' ∨ c = '\t' then (if w.isEmpty then tokens cs [] else w.reverse :: tokens cs [])
    else if c = '=' then (if w.isEmpty then ['='] :: tokens cs [] else w.reverse :: ['='] :: tokens cs [])
    else tokens cs (c :: w)

/-- A decimal numeral read left to right on top of `n`. -/
def readDecimal (n : Nat) : List Char → Option Nat
  | [] => some n
  | c :: cs => if 48 ≤ c.toNat ∧ c.toNat ≤ 57 then readDecimal (10 * n + (c.toNat - 48)) cs else none

/-- A numeral, hex `0x…` or decimal, from 0 to `2^256 - 1` (R79). -/
def readNumeral (cs : List Char) : Option Nat :=
  let value := match cs with
    | '0' :: 'x' :: d :: ds => readDigits 0 (d :: ds)
    | d :: ds => readDecimal 0 (d :: ds)
    | [] => none
  value.filter fun v => decide (v < 2 ^ 256)

/-- The number of a temporary `tN` (R79). -/
def readTemp : List Char → Option Nat
  | 't' :: d :: ds => readDecimal 0 (d :: ds)
  | _ => none

/-- A source: the name of a temporary or a literal (R79). -/
def readSource (cs : List Char) : Option Source :=
  match readTemp cs with
  | some n => some (.temp n)
  | none => (readNumeral cs).map Source.lit

/-- The tokens after a label as one line (R79, R81). -/
def readInstruction : List (List Char) → Option HostLine
  | [t, ['='], ['F', 'A', 'D', 'D'], x, y] => do return .fadd (← readTemp t) (← readSource x) (← readSource y)
  | [t, ['='], ['F', 'S', 'U', 'B'], x, y] => do return .fsub (← readTemp t) (← readSource x) (← readSource y)
  | [t, ['='], ['F', 'M', 'U', 'L'], x, y] => do return .fmul (← readTemp t) (← readSource x) (← readSource y)
  | [t, ['='], ['F', 'I', 'N', 'V'], x] => do return .finv (← readTemp t) (← readSource x)
  | [['B', 'R', 'E', 'R', 'R'], l] => some (.brerr l)
  | [['B', 'R', 'Z'], t, l] => do return .brz (← readTemp t) l
  | [['B', 'R', 'N', 'Z'], t, l] => do return .brnz (← readTemp t) l
  | [['H', 'A', 'L', 'T']] => some .halt
  | _ => none

/-- One line of program text: an optional label `name:` at its start, an optional line, an optional comment (R79, R81). None if it is no
line of that syntax. -/
def readLine (cs : List Char) : Option (List HostLine) :=
  match tokens (stripComment cs) [] with
  | [] => some []
  | w :: ws =>
    if w.getLast? = some ':' then
      if ws.isEmpty then some [.label w.dropLast]
      else (readInstruction ws).map fun i => [.label w.dropLast, i]
    else (readInstruction (w :: ws)).map fun i => [i]

/-- A program's text, line by line. -/
def readProgram (lines : List (List Char)) : Option (List HostLine) :=
  (lines.mapM readLine).map List.flatten

end Sys2Proof.Machine
end

