-- ==== Sys2Proof/Tests/Slice0.lean ====
section
/-! SUPPORT. Small tests, their expected values taken from the spec (95_test_vectors.md unless another file is named), and for every statement
with hypotheses a concrete case that meets them. -/

-- One theorem at a time: a thread for each theorem would pass the sandbox's memory limit.
set_option Elab.async false

namespace Sys2Proof.Tests

open Sys2Proof.Machine

/-- The next state, if there is one. -/
def nextState (o : Host.Outcome State Fault Refusal) : Option State :=
  match o with
  | .next s => some s
  | .fault _ => none
  | .refused _ => none

/-- The number of an `Ok` outcome. -/
def okNumber : ExecOutcome → Option Nat
  | .ok r => some r.toNat
  | .zeroInverse => none

/-- BUSY with a command whose latency has `left` edges left. -/
def busyState (op : BitVec 2) (a b : Word) (left : Nat) : State :=
  { State.reset with phase := .busy, opc := op, opa := a, opb := b, latencyLeft := left, issued := [⟨op, a, b⟩] }

/-- RESP with FADD 1, 2 answered, or FINV 0 errored. -/
def respState : State := { busyState 0 1 2 0 with phase := .resp, res := 3 }
def erroredState : State := { busyState 3 0 0 0 with phase := .resp, res := 7, err := true }
def unresetState : State := { State.reset with phase := .unreset }
def idleWith (p : List HostLine) : State := { State.reset with program := p }

/-- Cycles of the host. -/
def rstDrive : Drive := { Drive.idle with rst := true }
def cmdDrive (op : BitVec 2) (a b : Word) : Drive := { Drive.idle with cmdValid := true, cmdOp := op, cmdA := a, cmdB := b }
def dataDrive : Drive := { Drive.idle with readData := true }
def defineDrive (n : Nat) : Drive := { Drive.idle with define := some n }

/-! ## Decoding: words written out from 30_encoding.md R70, R71 (section 2.5) -/

theorem test_decode_fadd : decodeTableWord 514
    0x000000000000000000000000000000000000000000000000000000000000000010000000000000000000000000000000000000000000000000000000000000002 =
      some (.fadd 1 2) := by decide +kernel

theorem test_decode_fsub : decodeTableWord 514
    0x100000000000000000000000000000000000000000000000000000000000000030000000000000000000000000000000000000000000000000000000000000005 =
      some (.fsub 3 5) := by decide +kernel

theorem test_decode_fmul : decodeTableWord 514
    0x200000000000000000000000000000000000000000000000000000000000000030000000000000000000000000000000000000000000000000000000000000005 =
      some (.fmul 3 5) := by decide +kernel

theorem test_decode_finv_ignores_b : decodeTableWord 520
    0x30000000000000000000000000000000000000000000000000000000000000002FFFFFFFFFFFFFFFFFFFFFFFFFFFFFFFFFFFFFFFFFFFFFFFFFFFFFFFFFFFFFFFF =
      some (.finv 2) := by decide +kernel

/-- R77: a number of more than 514 bits is no command. -/
theorem test_decode_rejects_wide : decodeTableWord 520 (2 ^ 514) = none := by decide +kernel

/-- R73's example `10:0…03:0…05` is FMUL 3, 5; fewer digits stand for the same value. -/
theorem test_spelling_read : readCommand ['1', '0', ':', '3', ':', '5'] = some (encode (.fmul 3 5)) := by decide +kernel

theorem test_spelling_written : (spellCommand (encode (.fmul 3 0xAB))).drop 130 = ['A', 'B'] := by decide +kernel

/-! ## Results (sections 2.1 to 2.4) -/

/-- R91: the exact sum is above `2^256`. -/
theorem test_fadd_exact_sum :
    okNumber (outcomeOf (.fadd 0xFFFFFFFFFFFFFFFFFFFFFFFFFFFFFFFFFFFFFFFFFFFFFFFFFFFFFFFEFFFFFC2E 0xFFFFFFFFFFFFFFFFFFFFFFFFFFFFFFFFFFFFFFFFFFFFFFFFFFFFFFFEFFFFFC2E)) =
      some 0xFFFFFFFFFFFFFFFFFFFFFFFFFFFFFFFFFFFFFFFFFFFFFFFFFFFFFFFEFFFFFC2D := by decide +kernel

/-- R92: both operands non-canonical. -/
theorem test_fadd_noncanonical :
    okNumber (outcomeOf (.fadd 0xFFFFFFFFFFFFFFFFFFFFFFFFFFFFFFFFFFFFFFFFFFFFFFFFFFFFFFFFFFFFFFFF 0xFFFFFFFFFFFFFFFFFFFFFFFFFFFFFFFFFFFFFFFFFFFFFFFFFFFFFFFFFFFFFFFF)) =
      some 0x2000007A0 := by decide +kernel

/-- R95's example: a negative difference wraps. -/
theorem test_fsub_wraps :
    okNumber (outcomeOf (.fsub 3 5)) = some 0xFFFFFFFFFFFFFFFFFFFFFFFFFFFFFFFFFFFFFFFFFFFFFFFFFFFFFFFEFFFFFC2D := by decide +kernel

/-- R97: FNEG of a non-canonical word. -/
theorem test_fsub_noncanonical :
    okNumber (outcomeOf (.fsub 0 0xFFFFFFFFFFFFFFFFFFFFFFFFFFFFFFFFFFFFFFFFFFFFFFFFFFFFFFFFFFFFFFFF)) =
      some 0xFFFFFFFFFFFFFFFFFFFFFFFFFFFFFFFFFFFFFFFFFFFFFFFFFFFFFFFDFFFFF85F := by decide +kernel

/-- R112: both operands non-canonical. -/
theorem test_fmul_noncanonical :
    okNumber (outcomeOf (.fmul 0xFFFFFFFFFFFFFFFFFFFFFFFFFFFFFFFFFFFFFFFFFFFFFFFFFFFFFFFFFFFFFFFF 0xFFFFFFFFFFFFFFFFFFFFFFFFFFFFFFFFFFFFFFFFFFFFFFFFFFFFFFFFFFFFFFFF)) =
      some 0x1000007A0000E8900 := by decide +kernel

/-- FSQR of the generator's x. -/
theorem test_fmul_square :
    okNumber (outcomeOf (.fmul 0x79BE667EF9DCBBAC55A06295CE870B07029BFCDB2DCE28D959F2815B16F81798 0x79BE667EF9DCBBAC55A06295CE870B07029BFCDB2DCE28D959F2815B16F81798)) =
      some 0x8550E7D238FCF3086BA9ADCF0FB52A9DE3652194D06CB5BB38D50229B854FC49 := by decide +kernel

/-- R136. -/
theorem test_finv_noncanonical :
    okNumber (outcomeOf (.finv 0xFFFFFFFFFFFFFFFFFFFFFFFFFFFFFFFFFFFFFFFFFFFFFFFFFFFFFFFFFFFFFFFF)) =
      some 0xBE4316DBA038DAAD273E4BDA627ECF687C8941A534B5BA270B2A4B24B07E6798 := by decide +kernel

/-- R131: P itself is a zero residue. -/
theorem test_finv_of_P_errs :
    (nextState (exec (.finv 0xFFFFFFFFFFFFFFFFFFFFFFFFFFFFFFFFFFFFFFFFFFFFFFFFFFFFFFFEFFFFFC2F) (busyState 3 0 0 1))).map
      (fun t => (t.err, t.phase)) = some (true, Phase.resp) := by decide +kernel

/-- R54: `B[0]` is the most significant byte. -/
theorem test_byte_view : byteOf 0x79BE667EF9DCBBAC55A06295CE870B07029BFCDB2DCE28D959F2815B16F81798 0 = 0x79#8 := by decide +kernel

/-- R11 and R135: the modulus as a number, and its length. -/
theorem test_modulus : P = 2 ^ 256 - 2 ^ 32 - 977 ∧ P - 2 < 2 ^ 256 ∧ 2 ^ 255 ≤ P - 2 := by decide +kernel

/-! ## The handshake and reset trace (section 2.6) -/

/-- Edge 0: reset wins over FSUB 9, 9 presented with it. -/
theorem test_trace_edge0_reset :
    (nextState (edge { cmdDrive 1 9 9 with rst := true } unresetState)).map (fun t => (t.phase, t.issued)) = some (Phase.idle, []) := by decide

/-- Edge 2: FADD 1, 2 is issued. -/
theorem test_trace_edge2_issue :
    (nextState (edge (cmdDrive 0 1 2) State.reset)).map (fun t => (t.phase, latched t)) = some (Phase.busy, ⟨0, 1, 2⟩) := by decide

/-- Edge 3: LATENCY = 2 has not elapsed. -/
theorem test_trace_edge3_wait :
    (nextState (edge Drive.idle (busyState 0 1 2 2))).map (fun t => (t.phase, t.latencyLeft)) = some (Phase.busy, 1) := by decide

/-- Edge 4: completion with 3, while FMUL 3, 5 is presented and not taken. -/
theorem test_trace_edge4_complete :
    (nextState (edge (cmdDrive 2 3 5) (busyState 0 1 2 1))).map (fun t => (t.phase, t.res, t.err, latched t)) =
      some (Phase.resp, 3, false, ⟨0, 1, 2⟩) := by decide +kernel

/-- Edge 5: the host receives `0:3`, and FMUL is still not taken. -/
theorem test_trace_edge5_consume :
    (nextState (edge { cmdDrive 2 3 5 with rspReady := true } respState)).map (fun t => (t.phase, t.delivered, t.issued.length)) =
      some (Phase.idle, [⟨false, 3⟩], 1) := by decide

/-- R172: a reset edge in place of edge 4 abandons the command. -/
theorem test_reset_abandons :
    (nextState (edge rstDrive (busyState 0 1 2 1))).map (fun t => (t.phase, t.res)) = some (Phase.idle, 0) := by decide

/-- R43: the outputs are gated by `rst`. -/
theorem test_outputs_gated :
    cmdReady false State.reset = true ∧ cmdReady true State.reset = false ∧
    rspValid false respState = true ∧ rspValid true respState = false := by decide

/-! ## Fetching (log 8): the placed word is what the next step executes -/

theorem test_withFetchWord_runs :
    (nextState (step (State.reset.withFetchWord 514
      0x200000000000000000000000000000000000000000000000000000000000000030000000000000000000000000000000000000000000000000000000000000005))).map
      (fun t => (t.res, t.phase)) = some (15, Phase.resp) := by decide +kernel

/-! ## Program text (R79, R81) -/

theorem test_read_line : readLine ['t', '2', ' ', '=', ' ', 'F', 'M', 'U', 'L', ' ', 't', '1', ',', ' ', '0', 'x', '1', 'F', ' ', ';', ' ', '3'] =
    some [.fmul 2 (.temp 1) (.lit 31)] := by decide +kernel

theorem test_read_label : readLine ['b', 'a', 'd', ':', ' ', 'H', 'A', 'L', 'T'] = some [.label ['b', 'a', 'd'], .halt] := by decide +kernel

/-! ## Well-formedness: the program of P1's shape passes, and each check refuses a term -/

theorem test_wellformed_accepts : programWellFormed
    [.fmul 1 (.lit 3) (.lit 3), .fsub 2 (.temp 1) (.lit 9), .brnz 2 ['b'], .halt, .label ['b'], .halt] = true := by decide +kernel

theorem test_wellformed_refuses_wide_literal : literalsFit [.finv 1 (.lit (2 ^ 256))] = false := by decide +kernel

theorem test_wellformed_refuses_second_definition : destsUnique [.finv 1 (.lit 3), .finv 1 (.lit 5)] = false := by decide

theorem test_wellformed_refuses_undefined_source : sourcesEarlier [] [.finv 2 (.temp 1), .finv 1 (.lit 5)] = false := by decide

theorem test_wellformed_refuses_second_label : labelsUnique [.label ['a'], .label ['a']] = false := by decide

theorem test_wellformed_refuses_jump_nowhere : jumpsLand [.brerr ['a'], .label ['b']] = false := by decide

theorem test_wellformed_instructions : Instr.wellFormed (.fadd (BitVec.ofNat 256 P) 0) = true ∧ Instr.wellFormed (.finv 0) = true := by decide

/-! ## Witnesses: each statement with hypotheses has a case that meets them -/

theorem test_witness_DecodingIsTotal : (2 ^ 514 - 1 : Nat) < 2 ^ 514 ∧ (2 ^ 514 : Nat) ≤ 2 ^ 514 := by decide +kernel

theorem test_witness_ByteViewBigEndian : (31 : Nat) < 32 ∧ (List.replicate 32 (0xFF#8)).length = 32 := by decide

theorem test_witness_FsubResult : canon 3 ≤ canon 5 ∧ canon 3 < canon 5 ∧ canon 3 ≤ canon 3 := by decide +kernel

theorem test_witness_FinvResult : canon 2 ≠ 0 ∧ canon 0 = 0 := by decide +kernel

theorem test_witness_FinvOfZeroCompletes : canon (BitVec.ofNat 256 P) = 0 := by decide +kernel

theorem test_witness_OperandsCountAsResidues :
    P ≤ (BitVec.ofNat 256 P).toNat ∧ canon (BitVec.ofNat 256 P) = canon 0 ∧ canon (BitVec.ofNat 256 (P + 1)) = canon 1 := by decide +kernel

theorem test_witness_FaddLaws : (BitVec.ofNat 256 (P - 1)).toNat < P ∧ (P - canon 1) % P = (BitVec.ofNat 256 (P - 1)).toNat := by decide +kernel

theorem test_witness_FinvIsTheInverse : canon 2 ≠ 0 ∧ canon 2 * ((P + 1) / 2) % P = 1 ∧ (P + 1) / 2 < P := by decide +kernel

theorem test_witness_FinvLaws : canon 2 ≠ 0 ∧ canon (BitVec.ofNat 256 (P - 1)) ≠ 0 := by decide +kernel

theorem test_witness_PseudoInstructionsCompute : (2 ^ 256 - 1 : Nat) < 2 ^ 256 ∧ canon 0 = 0 ∧ canon 3 ≠ 0 := by decide +kernel

theorem test_witness_StepRunsDecodedCommand :
    ({ busyState 3 0 0 1 with script := [cmdDrive 0 1 1] } : State).script = [cmdDrive 0 1 1] ∧ (cmdDrive 0 1 1).rst = false ∧
    usesNothing (cmdDrive 0 1 1) ∧ (busyState 3 0 0 1).phase = .busy ∧ (busyState 3 0 0 1).latencyLeft ≤ 1 ∧ (2 ^ 514 - 1 : Nat) < 2 ^ 514 := by decide +kernel

theorem test_witness_CommandTakenOnlyAtIssueEdge :
    (∃ t, edge (cmdDrive 0 1 2) State.reset = .next t) ∧ cmdReady false State.reset = true ∧
    (∃ t, edge (cmdDrive 0 1 2) (busyState 0 1 2 2) = .next t) ∧ cmdReady false (busyState 0 1 2 2) = false ∧
    (∃ t, edge { cmdDrive 0 1 2 with rst := true } respState = .next t ∧ t.issued = []) :=
  ⟨⟨_, rfl⟩, rfl, ⟨_, rfl⟩, rfl, ⟨_, rfl, rfl⟩⟩

theorem test_witness_IssueLatchesAndIsolates :
    usesNothing (cmdDrive 3 0 0) ∧ (cmdDrive 3 0 0).rst = false ∧ (cmdDrive 3 0 0).cmdValid = true ∧ State.reset.phase = .idle ∧
    (busyState 0 1 2 2).phase = .busy ∧ respState.phase = .resp := by decide

theorem test_witness_RegistersWrittenOnlyWhereNamed :
    respState.phase ≠ .unreset ∧ (∃ t, edge Drive.ready respState = .next t) ∧ issues Drive.ready respState = false :=
  ⟨by decide, ⟨_, rfl⟩, rfl⟩

theorem test_witness_ResponseDeliveredOnce :
    usesNothing Drive.ready ∧ consumes Drive.ready respState = true ∧ (∃ t, edge Drive.ready respState = .next t) ∧
    (∃ t, edge Drive.idle respState = .next t) ∧ consumes Drive.idle respState = false ∧
    (∃ t, edge { Drive.ready with rst := true } { respState with delivered := [⟨false, 1⟩] } = .next t ∧ t.delivered = []) :=
  ⟨rfl, rfl, ⟨_, rfl⟩, ⟨_, rfl⟩, rfl, ⟨_, rfl, rfl⟩⟩

theorem test_witness_PendingResponseHolds :
    respState.phase = .resp ∧ (∃ t, runEdges [Drive.idle, defineDrive 1] respState = .next t) ∧
    (∃ t, edge Drive.ready respState = .next t ∧ t.phase ≠ .resp) :=
  ⟨rfl, ⟨_, rfl⟩, ⟨_, rfl, by decide⟩⟩

theorem test_witness_ReadyWithoutResponseHasNoEffect :
    State.reset.phase ≠ .unreset ∧ rspValid false State.reset = false ∧ rspValid true respState = false ∧ respState.phase = .resp := by decide

theorem test_witness_ResetEdgeWritesOnlyState :
    usesNothing rstDrive ∧ rstDrive.rst = true ∧ (∃ t, edge rstDrive respState = .next t) ∧ usesResponse dataDrive = true :=
  ⟨rfl, rfl, ⟨_, rfl⟩, rfl⟩

theorem test_witness_ResetIsIdempotent :
    usesNothing rstDrive ∧ rstDrive.rst = true ∧ [rstDrive, rstDrive] ≠ [] ∧ ∀ e ∈ [rstDrive, rstDrive], usesNothing e ∧ e.rst = true := by decide

theorem test_witness_OnlyResetBeforeFirstReset :
    unresetState.phase = .unreset ∧ usesNothing rstDrive ∧ usesNothing (cmdDrive 0 1 2) ∧ (cmdDrive 0 1 2).rst = false ∧
    (cmdDrive 0 1 2).cmdValid = true ∧ Drive.ready.cmdValid = false ∧ Drive.ready.rspReady = true ∧ usesResponse dataDrive = true ∧
    Drive.idle.rspReady = false := by decide

theorem test_witness_UnsoundUseOfResponseFaults :
    dataDrive.readData = true ∧ rspValid false State.reset = false ∧ erroredState.err = true ∧ (defineDrive 1).define = some 1 ∧
    rspValid false erroredState = true ∧ ({ Drive.idle with readErr := true } : Drive).readErr = true := by decide

theorem test_witness_EdgeAnswersExactlyWhenAdmitted :
    (∃ t, edge (defineDrive 1) respState = .next t) ∧ (edge (defineDrive 1) erroredState = .fault .temporaryFromErroredResponse) :=
  ⟨⟨_, rfl⟩, rfl⟩

theorem test_witness_TemporariesChangeOnlyByDefinition :
    ∃ t, edge (defineDrive 1) respState = .next t ∧ (defineDrive 1).define = some 1 ∧ (defineDrive 1).define ≠ some 2 :=
  ⟨_, rfl, rfl, by decide⟩

theorem test_witness_CommandCompletesInItsLatency :
    (busyState 0 1 2 2).phase = .busy ∧ [Drive.idle].length < max 1 2 ∧ [Drive.idle, Drive.ready].length = max 1 2 ∧
    (∀ d ∈ [Drive.idle, Drive.ready], d.rst = false ∧ usesNothing d) ∧ [Drive.idle].length = max 1 (busyState 0 1 2 0).latencyLeft := by decide

theorem test_witness_TurnaroundBounds :
    issues (cmdDrive 0 1 2) State.reset = true ∧ (∃ t, edge (cmdDrive 0 1 2) State.reset = .next t ∧ ∃ u, runEdges [] t = .next u) ∧
    consumes Drive.ready respState = true ∧ (∃ t, edge Drive.ready respState = .next t) :=
  ⟨rfl, ⟨_, rfl, _, rfl⟩, rfl, ⟨_, rfl⟩⟩

/-- The state of section 2.6 after edge 4 meets the invariants. -/
theorem test_witness_StepKeepsInvariants : Inv respState ∧ ∃ t, step { respState with script := [Drive.ready] } = .next t :=
  ⟨⟨rfl, fun _ => rfl, fun _ => by decide +kernel, rfl, fun h => by cases h⟩, ⟨_, rfl⟩⟩

theorem test_witness_StepKeepsTemporariesOrdered :
    tempsCanonical [(1, (3 : Word)), (4, 5)] ∧ ∃ t, step { respState with temps := [(1, 3), (4, 5)], script := [defineDrive 2] } = .next t :=
  ⟨by decide, _, rfl⟩

theorem test_witness_ResponsesInIssueOrder :
    ∃ t, edge rstDrive State.reset = .next t ∧ ∃ u, runEdges [Drive.idle] t = .next u ∧
      ∃ v, edge Drive.ready respState = .next v ∧ v.delivered[0]? = some ⟨false, 3⟩ ∧ (⟨false, 3⟩ : Response).err = false :=
  ⟨_, rfl, _, rfl, _, rfl, rfl, rfl⟩

theorem test_witness_EdgeRefinesAbstractMachine :
    ∃ t, edge Drive.ready erroredState = .next t ∧ labelOf Drive.ready erroredState = some (.consume .zeroInverse) :=
  ⟨_, rfl, rfl⟩

theorem test_witness_HostLineIsIssued :
    (idleWith [.fadd 1 (.lit 3) (.lit 5)]).script = [] ∧ (idleWith []).awaiting = none ∧ (idleWith []).phase = .idle ∧
    (idleWith [.fadd 1 (.lit 3) (.lit 5)]).program[0]? = some (.fadd 1 (.lit 3) (.lit 5)) ∧
    (idleWith [.fsub 1 (.lit 3) (.lit 5)]).program[0]? = some (.fsub 1 (.lit 3) (.lit 5)) ∧
    (idleWith [.fmul 1 (.lit 3) (.lit 5)]).program[0]? = some (.fmul 1 (.lit 3) (.lit 5)) ∧
    (idleWith [.finv 1 (.lit 3)]).program[0]? = some (.finv 1 (.lit 3)) ∧
    sourceValue [] (.lit 3) = .ok 3 ∧ sourceValue [] (.lit 5) = .ok 5 := by
  refine ⟨rfl, rfl, rfl, rfl, rfl, rfl, rfl, ?_, ?_⟩ <;> rfl

theorem test_witness_HostLineRunsToItsResponse :
    let s : State := { busyState 3 0 0 2 with program := [.finv 1 (.lit 0)], awaiting := some 1 }
    s.script = [] ∧ s.awaiting = some 1 ∧ s.phase = .busy ∧ lookupTemp 1 s.temps = none ∧ commandOutcome (latched s) = .zeroInverse ∧
    commandOutcome (latched (busyState 2 3 5 1)) = .ok 15 := by decide +kernel

/-- Taken jumps, jumps not taken with no such label, HALT in a program without labels, and a label. -/
theorem test_witness_ControlLinesMoveTheSequencer :
    let s : List HostLine → State := fun p => { idleWith p with temps := [(1, 0), (2, 7)] }
    (s []).script = [] ∧ (s []).awaiting = none ∧ (s []).lastErr = false ∧ lookupTemp 1 (s []).temps = some 0 ∧ lookupTemp 2 (s []).temps = some 7 ∧
    (∃ t, step { s [.brerr ['a'], .label ['a']] with lastErr := true } = .next t) ∧ (∃ t, step (s [.brerr ['a']]) = .next t) ∧
    (∃ t, step (s [.brz 1 ['a'], .halt, .label ['a'], .label ['a']]) = .next t ∧ t.line = 2) ∧ (∃ t, step (s [.brz 2 ['a']]) = .next t) ∧
    (∃ t, step (s [.brnz 2 ['a'], .label ['a']]) = .next t) ∧ (∃ t, step (s [.brnz 1 ['a']]) = .next t) ∧
    (∃ t, step (s [.halt]) = .next t) ∧ (∃ t, step (s [.label ['a']]) = .next t) :=
  ⟨rfl, rfl, rfl, rfl, rfl, ⟨_, rfl⟩, ⟨_, rfl⟩, ⟨_, rfl, rfl⟩, ⟨_, rfl⟩, ⟨_, rfl⟩, ⟨_, rfl⟩, ⟨_, rfl⟩, ⟨_, rfl⟩⟩

theorem test_witness_UnitsShareNothing : ∃ sys, systemStep 0 [State.reset, respState] = .next sys := ⟨_, rfl⟩

theorem test_witness_StepAnswersExactlyWhenAdmitted :
    (∃ t, step (idleWith [.fadd 1 (.lit 3) (.lit 5)]) = .next t) ∧ step (idleWith [.fadd 1 (.temp 2) (.lit 5)]) = .fault (.temporaryUndefined 2) ∧
    step { idleWith [.halt] with phase := .unreset } = .refused .responseBeforeReset :=
  ⟨⟨_, rfl⟩, rfl, rfl⟩

/-- The second source of a line stops it only where the first is readable; the last case is R79's temporary defined twice. -/
theorem test_witness_SequencerStopsByName :
    (idleWith [.fsub 1 (.lit 3) (.temp 2)]).program[0]? = some (.fsub 1 (.lit 3) (.temp 2)) ∧
    lineSources (.fsub 1 (.lit 3) (.temp 2)) = [.lit 3] ++ .temp 2 :: [] ∧ (∀ y ∈ [Source.lit 3], readable [] y) ∧
    lookupTemp 2 [] = none ∧ lineSources (.finv 1 (.lit (2 ^ 256))) = [] ++ .lit (2 ^ 256) :: [] ∧
    jumpLabel { idleWith [.brerr ['a']] with lastErr := true } (.brerr ['a']) = some ['a'] ∧
    .label ['a'] ∉ (idleWith [.brerr ['a']]).program ∧
    (let s : State := { respState with awaiting := some 1, temps := [(1, 3)] }
     s.script = [] ∧ s.awaiting = some 1 ∧ s.phase = .resp ∧ s.err = false ∧ lookupTemp 1 s.temps ≠ none) := by
  refine ⟨rfl, rfl, ?_, rfl, rfl, rfl, by decide, rfl, rfl, rfl, rfl, by decide⟩
  intro y hy
  rw [List.mem_singleton.1 hy]
  exact ⟨by decide +kernel, fun n h => by cases h⟩

/-- A reset while the sequencer awaits the response of its line (R172). -/
theorem test_witness_ResetMakesSequencerReissue :
    let s : State := { busyState 0 3 5 2 with program := [.fadd 1 (.lit 3) (.lit 5)], awaiting := some 1, script := [rstDrive] }
    (∃ t, edge rstDrive s = .next t) ∧ s.script = [rstDrive] ∧ rstDrive.rst = true ∧ usesNothing rstDrive ∧
    s.program[s.line]? = some (.fadd 1 (.lit 3) (.lit 5)) ∧ sourceValue s.temps (.lit 3) = .ok 3 ∧ sourceValue s.temps (.lit 5) = .ok 5 :=
  ⟨⟨_, rfl⟩, rfl, rfl, rfl, rfl, rfl, rfl⟩

/-- Log 22: a host fault at one instance stops the system. -/
theorem test_systemStep_fault :
    systemStep 1 [State.reset, { State.reset with script := [dataDrive] }] = .fault .dataWithoutResponse := rfl

end Sys2Proof.Tests
end

section
/-! PROOFS. The invariants of the machine are kept by each of its edges, hence by every step (10_state.md R30; 20_memory.md R57). -/

namespace Sys2Proof.Machine

/-! How many commands the FAU holds in each phase (R45). -/

theorem held_of_unreset {s : State} (h : s.phase = .unreset) : held s = 0 := by simp [held, h]

theorem held_of_idle {s : State} (h : s.phase = .idle) : held s = 0 := by simp [held, h]

theorem held_of_busy {s : State} (h : s.phase = .busy) : held s = 1 := by simp [held, h]

theorem held_of_resp {s : State} (h : s.phase = .resp) : held s = 1 := by simp [held, h]

theorem held_congr {s t : State} (h : t.phase = s.phase) : held t = held s := by simp only [held, h]

/-! Each edge of the state machine (R31, R33, R34) keeps the invariants. -/

/-- The invariants speak of the FAU and of the host's two records, not of the script, the sequencer or the temporaries. -/
theorem inv_of_same_fau {s t : State} (hs : Inv s) (hphase : t.phase = s.phase) (hlatched : latched t = latched s)
    (hwires : responseWires t = responseWires s) (hleft : t.latencyLeft = s.latencyLeft)
    (hissued : t.issued = s.issued) (hdelivered : t.delivered = s.delivered) : Inv t where
  holdsOne := by rw [hissued, hdelivered, held_congr hphase]; exact hs.holdsOne
  holdsLast := by rw [hissued, hlatched, held_congr hphase]; exact hs.holdsLast
  answered := by rw [hphase, hwires, hlatched]; exact hs.answered
  inOrder := by rw [hissued, hdelivered]; exact hs.inOrder
  latencyPositive := by rw [hphase, hleft]; exact hs.latencyPositive

theorem inv_capture {s : State} (hs : Inv s) (d : Drive) : Inv (capture d s) :=
  inv_of_same_fau hs (by simp) (by simp) (by simp) (by simp) (by simp) (by simp)

theorem inv_resetEdge (s : State) : Inv (resetEdge s) where
  holdsOne := by simp [held_of_idle (resetEdge_phase s)]
  holdsLast := by simp [held_of_idle (resetEdge_phase s)]
  answered := by simp
  inOrder := by simp
  latencyPositive := by simp

theorem inv_scramble {s : State} (hs : Inv s) (hp : s.phase = .unreset) : Inv (scramble s) where
  holdsOne := by simpa [held_congr (scramble_phase s)] using hs.holdsOne
  holdsLast := by simp [held_of_unreset, hp]
  answered := by simp [hp]
  inOrder := by simpa using hs.inOrder
  latencyPositive := by simp [hp]

/-- The command that joins those taken is the one latched; those already answered stand before it. -/
theorem inv_issue {s : State} (hs : Inv s) (hp : s.phase = .idle) (c : Command) : Inv (issue c s) where
  holdsOne := by simpa [held_of_busy (issue_phase c s), held_of_idle hp] using hs.holdsOne
  holdsLast := by simp
  answered := by simp
  inOrder := by
    have hlen : s.issued.length = s.delivered.length := by simpa [held_of_idle hp] using hs.holdsOne
    simpa [List.take_append_of_le_length hlen.ge] using hs.inOrder
  latencyPositive := by simp [latency]

theorem inv_waitEdge {s : State} (hs : Inv s) (hp : s.phase = .busy) (hleft : 1 < s.latencyLeft) : Inv (waitEdge s) where
  holdsOne := by simpa [held_congr (waitEdge_phase s)] using hs.holdsOne
  holdsLast := by simpa [held_congr (waitEdge_phase s)] using hs.holdsLast
  answered := by simp [hp]
  inOrder := by simpa using hs.inOrder
  latencyPositive := fun _ => by rw [waitEdge_latencyLeft]; omega

/-- The completion of the latched command: the response wires encode its outcome, and nothing joins the records. -/
theorem inv_complete {s : State} (hs : Inv s) (hp : s.phase = .busy) :
    Inv (complete (commandOutcome (latched s)) s) := by
  obtain ⟨-, -, hissued, hdelivered, -⟩ := complete_frame (commandOutcome (latched s)) s
  exact
    { holdsOne := by rw [hissued, hdelivered, held_of_resp (complete_phase _ _), ← held_of_busy hp]; exact hs.holdsOne
      holdsLast := fun _ => by rw [hissued, latched_complete]; exact hs.holdsLast (held_of_busy hp)
      answered := fun _ => by rw [responseOutcome_complete, latched_complete]
      inOrder := by rw [hissued, hdelivered]; exact hs.inOrder
      latencyPositive := by simp }

/-- The response consumed is that of the last command taken, which is the only one not answered before. -/
theorem inv_consume {s : State} (hs : Inv s) (hp : s.phase = .resp) : Inv (consume s) where
  holdsOne := by simpa [held_of_idle (consume_phase s), held_of_resp hp] using hs.holdsOne
  holdsLast := by simp [held_of_idle (consume_phase s)]
  answered := by simp
  inOrder := by
    obtain ⟨before, hissued⟩ := List.getLast?_eq_some_iff.1 (hs.holdsLast (held_of_resp hp))
    have hlen : before.length = s.delivered.length := by
      simpa [hissued, held_of_resp hp] using hs.holdsOne
    have horder : s.delivered.map responseOutcome = before.map commandOutcome := by
      simpa [hissued, ← hlen] using hs.inOrder
    simp [hissued, ← hlen, horder, hs.answered hp]
  latencyPositive := by simp

/-! From the edges to the step. -/

theorem clock_keeps_inv {d : Drive} {s t : State} (hs : Inv s) (h : clock d s = .next t) : Inv t := by
  rcases clock_cases h with ⟨-, rfl⟩ | ⟨-, hp, -, -, rfl⟩ | ⟨-, hp, -, rfl⟩ | ⟨-, -, -, rfl⟩ | ⟨-, hp, hleft, rfl⟩ |
    ⟨-, hp, -, rfl⟩ | ⟨-, hp, -, rfl⟩ | ⟨-, -, -, rfl⟩
  · exact inv_resetEdge s
  · exact inv_scramble hs hp
  · exact inv_issue hs hp _
  · exact hs
  · exact inv_waitEdge hs hp hleft
  · exact inv_complete hs hp
  · exact inv_consume hs hp
  · exact hs

theorem edge_keeps_inv {d : Drive} {s t : State} (hs : Inv s) (h : edge d s = .next t) : Inv t := by
  obtain ⟨-, -, hclock⟩ := edge_next h
  exact clock_keeps_inv (inv_capture hs d) hclock

/-- Settles O40: a step is an edge from a state with the same FAU and the same records, and every edge keeps the invariants. -/
theorem stepKeepsInvariants : Obligations.StepKeepsInvariants := by
  intro s t hs h
  obtain ⟨d, u, hedge, hu⟩ := step_edge h
  have hinv : Inv u := by rw [hu]; exact inv_of_same_fau hs rfl rfl rfl rfl rfl rfl
  exact edge_keeps_inv hinv hedge

end Sys2Proof.Machine
end

section
/-! PROOFS. What an edge does in each phase, and when it answers a next state: the layer under the statements of 10_state.md. -/

namespace Sys2Proof.Machine

/-! A completion leaves the host's program and script as they were (R31). -/

@[simp] theorem complete_program (o : ExecOutcome) (s : State) : (complete o s).program = s.program := by cases o <;> rfl
@[simp] theorem complete_script (o : ExecOutcome) (s : State) : (complete o s).script = s.script := by cases o <;> rfl

/-! Which updates of the state leave the response wires as they were. -/

@[simp] theorem responseWires_issue (c : Command) (s : State) : responseWires (issue c s) = responseWires s := rfl
@[simp] theorem responseWires_waitEdge (s : State) : responseWires (waitEdge s) = responseWires s := rfl
@[simp] theorem responseWires_consume (s : State) : responseWires (consume s) = responseWires s := rfl
@[simp] theorem responseWires_resetEdge (s : State) : responseWires (resetEdge s) = responseWires s := rfl

theorem rspValid_of_ne_resp {s : State} (h : s.phase ≠ .resp) (rst : Bool) : rspValid rst s = false := by
  simp [rspValid, h]

/-! The state machine's edge in each phase (R31, R33, R34). -/

theorem clock_reset {d : Drive} (hrst : d.rst = true) (s : State) : clock d s = .next (resetEdge s) := by
  simp [clock, hrst]

theorem clock_unreset {d : Drive} {s : State} (hrst : d.rst = false) (hp : s.phase = .unreset) :
    clock d s = if d.cmdValid then .refused .issueBeforeReset
      else if d.rspReady then .refused .responseBeforeReset else .next (scramble s) := by
  simp [clock, hrst, hp]

theorem clock_idle {d : Drive} {s : State} (hrst : d.rst = false) (hp : s.phase = .idle) :
    clock d s = .next (if d.cmdValid then issue (presented d) s else s) := by
  simp [clock, hrst, hp, presented]

theorem clock_busy_of_waiting {d : Drive} {s : State} (hrst : d.rst = false) (hp : s.phase = .busy)
    (hleft : 1 < s.latencyLeft) : clock d s = .next (waitEdge s) := by
  simp [clock, hrst, hp, latencyElapsed, hleft]

theorem clock_busy_of_elapsed {d : Drive} {s : State} (hrst : d.rst = false) (hp : s.phase = .busy)
    (hleft : s.latencyLeft ≤ 1) : clock d s = exec (decode (wordOfCommand (latched s))) s := by
  simp [clock, hrst, hp, latencyElapsed, hleft]

theorem clock_resp {d : Drive} {s : State} (hrst : d.rst = false) (hp : s.phase = .resp) :
    clock d s = .next (if d.rspReady then consume s else s) := by
  simp [clock, hrst, hp]

/-- Only before the first reset is an edge of the state machine refused (R34). -/
theorem clock_answers_iff {d : Drive} {s : State} : (∃ t, clock d s = .next t) ↔
    (s.phase = .unreset → d.rst = true ∨ (d.cmdValid = false ∧ d.rspReady = false)) := by
  cases hrst : d.rst with
  | true => simp [clock_reset hrst]
  | false =>
    cases hp : s.phase with
    | unreset =>
      rw [clock_unreset hrst hp]
      cases d.cmdValid <;> cases d.rspReady <;> simp
    | idle => simp [clock_idle hrst hp]
    | busy =>
      by_cases hleft : s.latencyLeft ≤ 1
      · simp [clock_busy_of_elapsed hrst hp hleft, exec_eq]
      · simp [clock_busy_of_waiting hrst hp (by omega)]
    | resp => simp [clock_resp hrst hp]

/-! The edge around it: the host's uses of the response wires (R50, R152). -/

theorem edge_of_readFault {d : Drive} {s : State} {f : Fault} (hp : s.phase ≠ .unreset) (hf : readFault d s = some f) :
    edge d s = .fault f := by
  simp [edge, hp, hf]

theorem edge_of_sound {d : Drive} {s : State} (hu : s.phase = .unreset → usesNothing d) (hf : readFault d s = none) :
    edge d s = clock d (capture d s) := by
  by_cases hp : s.phase = .unreset
  · simp [edge, hu hp, hf]
  · simp [edge, hp, hf]

/-- A use of a response wire while no response is valid faults, after the first reset (R50). -/
theorem edge_faults_without_response {d : Drive} {s : State} (hp : s.phase ≠ .unreset) (hv : rspValid d.rst s = false)
    (huse : usesResponse d = true) : ∃ f, edge d s = .fault f := by
  cases hf : readFault d s with
  | some f => exact ⟨f, edge_of_readFault hp hf⟩
  | none =>
    obtain ⟨herr, hdata, hdefine⟩ := readFault_eq_none.1 hf
    have hnone : d.define = none := Option.eq_none_iff_forall_ne_some.2 fun n hn => by
      simpa [hv] using (hdefine n hn).1
    simp_all [usesResponse]

/-- A reset edge that answers is the reset edge of R33 alone: no temporary is defined at it. -/
theorem edge_reset_eq {d : Drive} {s t : State} (hrst : d.rst = true) (h : edge d s = .next t) : t = resetEdge s := by
  obtain ⟨-, hf, hclock⟩ := edge_next h
  have hdefine : d.define = none := Option.eq_none_iff_forall_ne_some.2 fun n hn => by
    simpa [hrst] using (phase_of_define hf hn).2.1
  rw [capture_of_define_none hdefine, clock_reset hrst] at hclock
  injection hclock with hclock
  exact hclock.symm

theorem edge_reset_of_usesNothing {d : Drive} (hu : usesNothing d) (hrst : d.rst = true) (s : State) :
    edge d s = .next (resetEdge s) := by
  rw [edge_of_usesNothing hu, clock_reset hrst]

/-- An edge answers exactly when the cycle is admitted: R34 is the state machine's demand, R50 and R79 are `readFault`'s. -/
theorem edge_answers_iff {d : Drive} {s : State} : (∃ t, edge d s = .next t) ↔ Admitted d s := by
  constructor
  · rintro ⟨t, h⟩
    obtain ⟨hu, hf, hclock⟩ := edge_next h
    obtain ⟨herr, hdata, hdefine⟩ := readFault_eq_none.1 hf
    have hstart := clock_answers_iff.1 ⟨t, hclock⟩
    rw [capture_phase] at hstart
    exact ⟨fun hp => ⟨hu hp, hstart hp⟩, herr, hdata, hdefine⟩
  · rintro ⟨hbefore, herr, hdata, hdefine⟩
    rw [edge_of_sound (fun hp => (hbefore hp).1) (readFault_eq_none.2 ⟨herr, hdata, hdefine⟩)]
    exact clock_answers_iff.2 fun hp => (hbefore (by simpa using hp)).2

/-- Settles O36: the state machine refuses only what R34 excludes, and `readFault` names only the uses R50 and R79 exclude. -/
theorem edgeAnswersExactlyWhenAdmitted : Obligations.EdgeAnswersExactlyWhenAdmitted :=
  fun _ _ => edge_answers_iff

end Sys2Proof.Machine
end

section
/-! PROOFS. Which registers an edge writes, the reset edge, and the states right after reset and before it
(10_state.md R20, R31, R33, R34; 60_exceptions.md R150; 70_reset_and_hazards.md R170, R171). -/

namespace Sys2Proof.Machine

/-- OPC, OPA and OPB are written at issue edges only, once the FAU has been reset (R31). -/
theorem latched_of_not_issues {d : Drive} {s t : State} (hp : s.phase ≠ .unreset) (h : edge d s = .next t)
    (hi : issues d s = false) : latched t = latched s := by
  obtain ⟨-, -, hclock⟩ := edge_next h
  rcases clock_cases hclock with ⟨-, rfl⟩ | ⟨-, hq, -⟩ | ⟨hrst, hq, hvalid, -⟩ | ⟨-, -, -, rfl⟩ | ⟨-, -, -, rfl⟩ |
    ⟨-, -, -, rfl⟩ | ⟨-, -, -, rfl⟩ | ⟨-, -, -, rfl⟩
  · simp
  · exact absurd (by simpa using hq) hp
  · have hidle : s.phase = .idle := by simpa using hq
    simp [issues, cmdReady, hrst, hidle, hvalid] at hi
  all_goals simp

/-- RES and ERR are written at completion edges only, once the FAU has been reset (R31). -/
theorem responseWires_of_not_completes {d : Drive} {s t : State} (hp : s.phase ≠ .unreset) (h : edge d s = .next t)
    (hc : ¬ (s.phase = .busy ∧ t.phase = .resp)) : responseWires t = responseWires s := by
  obtain ⟨-, -, hclock⟩ := edge_next h
  rcases clock_cases hclock with ⟨-, rfl⟩ | ⟨-, hq, -⟩ | ⟨-, -, -, rfl⟩ | ⟨-, -, -, rfl⟩ | ⟨-, -, -, rfl⟩ |
    ⟨-, hq, -, rfl⟩ | ⟨-, -, -, rfl⟩ | ⟨-, -, -, rfl⟩
  · simp
  · exact absurd (by simpa using hq) hp
  · simp
  · simp
  · simp
  · exact absurd ⟨by simpa using hq, complete_phase _ _⟩ hc
  all_goals simp

/-- No edge touches the host's program or the cycles it has planned; `edge_line` says it of the sequencer's position. -/
theorem edge_program_script {d : Drive} {s t : State} (h : edge d s = .next t) :
    t.program = s.program ∧ t.script = s.script := by
  obtain ⟨-, -, hclock⟩ := edge_next h
  rcases clock_cases hclock with ⟨-, rfl⟩ | ⟨-, -, -, -, rfl⟩ | ⟨-, -, -, rfl⟩ | ⟨-, -, -, rfl⟩ | ⟨-, -, -, rfl⟩ |
    ⟨-, -, -, rfl⟩ | ⟨-, -, -, rfl⟩ | ⟨-, -, -, rfl⟩ <;> simp

/-- Settles O27: the operand latches, the response wires and the host's part, each by its own inversion of the edge. -/
theorem registersWrittenOnlyWhereNamed : Obligations.RegistersWrittenOnlyWhereNamed := by
  intro d s t hp h
  obtain ⟨hprogram, hscript⟩ := edge_program_script h
  exact ⟨fun hi => by simpa [latched] using latched_of_not_issues hp h hi,
    fun hc => by simpa [responseWires, and_comm] using responseWires_of_not_completes hp h hc,
    hprogram, hscript, edge_line h⟩

/-- Settles O31: the edge is `resetEdge` whatever is presented, and it leaves an IDLE state, in which no response is valid. -/
theorem resetEdgeWritesOnlyState : Obligations.ResetEdgeWritesOnlyState := by
  refine ⟨fun d s hu hrst => ⟨_, edge_reset_of_usesNothing hu hrst s⟩, fun d s t hrst h => ?_⟩
  obtain rfl := edge_reset_eq hrst h
  refine ⟨rfl, rfl, rfl, rfl, rfl, rfl, rfl, rfl, rfl, rfl, rfl, rfl, fun d' huse => ?_⟩
  exact edge_faults_without_response (by simp) (rspValid_of_ne_resp (by simp) _) huse

/-- FINV of a zero residue is the only command whose outcome is ZeroInverse (R131, R150). -/
theorem outcomeOf_eq_zeroInverse_iff {i : Instr} : outcomeOf i = .zeroInverse ↔ ∃ a, i = .finv a ∧ canon a = 0 := by
  cases i with
  | fadd a b => simp [outcomeOf_fadd]
  | fsub a b => simp [outcomeOf_fsub]
  | fmul a b => simp [outcomeOf_fmul]
  | finv a =>
    by_cases hz : canon a = 0
    · simp [outcomeOf_finv_zero hz, hz]
    · simp [outcomeOf_finv_ok hz, hz]

theorem errFlag_eq_true_iff {o : ExecOutcome} : errFlag o = true ↔ o = .zeroInverse := by
  cases o <;> simp [errFlag]

/-- Settles O14: a completion's ERR is the flag of the command's outcome. -/
theorem errOnlyFromFinvOfZero : Obligations.ErrOnlyFromFinvOfZero := by
  intro i s
  exact ⟨_, exec_eq i s, by rw [complete_err, errFlag_eq_true_iff, outcomeOf_eq_zeroInverse_iff]⟩

/-- Settles O33: State.reset is IDLE, so a command presented there is issued. -/
theorem resetStateIsReady : Obligations.ResetStateIsReady := by
  refine ⟨rfl, rfl, rfl, fun c => ⟨issue c State.reset, ?_, rfl, rfl⟩⟩
  rw [edge_of_usesNothing rfl, clock_idle rfl rfl]
  rfl

/-- Settles O34: the edges of an UNRESET state, by what the cycle presents. -/
theorem onlyResetBeforeFirstReset : Obligations.OnlyResetBeforeFirstReset := by
  refine ⟨rfl, fun d s hp => ⟨fun hu hrst => ?_, fun hu hrst hvalid => ?_, fun hu hrst hvalid hready => ?_, fun huse => ?_,
    fun hu hrst hvalid hready => ?_⟩⟩
  · exact ⟨_, edge_reset_of_usesNothing hu hrst s, rfl⟩
  · simp [edge_of_usesNothing hu, clock_unreset hrst hp, hvalid]
  · simp [edge_of_usesNothing hu, clock_unreset hrst hp, hvalid, hready]
  · simp [edge, huse, hp]
  · exact ⟨scramble s, by simp [edge_of_usesNothing hu, clock_unreset hrst hp, hvalid, hready], hp⟩

/-- A state that holds no command, with empty records, meets the invariants. -/
theorem inv_of_no_transfers {s : State} (hheld : held s = 0) (hissued : s.issued = []) (hdelivered : s.delivered = []) :
    Inv s where
  holdsOne := by simp [hheld, hissued, hdelivered]
  holdsLast := by simp [hheld]
  answered := fun hp => by simp [held_of_resp hp] at hheld
  inOrder := by simp [hdelivered]
  latencyPositive := fun hp => by simp [held_of_busy hp] at hheld

/-- Settles O41: neither state holds a command or a record of one, and neither has a temporary. -/
theorem invariantsHoldInitially : Obligations.InvariantsHoldInitially :=
  ⟨inv_of_no_transfers rfl rfl rfl, inv_of_no_transfers rfl rfl rfl, tempsCanonical_reset, tempsCanonical_reset⟩

end Sys2Proof.Machine
end

section
/-! PROOFS. Completion after the latency, runs of edges, and the machine without time
(10_state.md R30 to R32; 20_memory.md R57; 70_reset_and_hazards.md R178). -/

namespace Sys2Proof.Machine

/-! BUSY under a cycle without reset that uses no response wire (R31). -/

theorem edge_busy_of_waiting {d : Drive} {s : State} (hrst : d.rst = false) (hu : usesNothing d) (hp : s.phase = .busy)
    (hleft : 1 < s.latencyLeft) : edge d s = .next (waitEdge s) := by
  rw [edge_of_usesNothing hu, clock_busy_of_waiting hrst hp hleft]

theorem edge_busy_of_elapsed {d : Drive} {s : State} (hrst : d.rst = false) (hu : usesNothing d) (hp : s.phase = .busy)
    (hleft : s.latencyLeft ≤ 1) : edge d s = exec (decode (wordOfCommand (latched s))) s := by
  rw [edge_of_usesNothing hu, clock_busy_of_elapsed hrst hp hleft]

/-- The completion edge is `exec` of the latched word, which completes with that command's outcome. -/
theorem edge_busy_completes {d : Drive} {s : State} (hrst : d.rst = false) (hu : usesNothing d) (hp : s.phase = .busy)
    (hleft : s.latencyLeft ≤ 1) : edge d s = .next (complete (commandOutcome (latched s)) s) := by
  rw [edge_busy_of_elapsed hrst hu hp hleft, exec_eq, commandOutcome]

theorem runEdges_cons_of_next {d : Drive} {ds : List Drive} {s t : State} (h : edge d s = .next t) :
    runEdges (d :: ds) s = runEdges ds t := by
  simp [runEdges, h]

/-- Settles O38, by induction on the cycles: a waiting edge takes one off both the latency left and the cycles to come. -/
theorem commandCompletesInItsLatency : Obligations.CommandCompletesInItsLatency := by
  intro s ds
  induction ds generalizing s with
  | nil =>
    intro hp _
    refine ⟨fun _ => ⟨s, rfl, hp, rfl⟩, fun hlen => ?_⟩
    simp only [List.length_nil] at hlen
    omega
  | cons d ds ih =>
    intro hp hds
    obtain ⟨⟨hrst, hu⟩, hrest⟩ := List.forall_mem_cons.1 hds
    simp only [List.length_cons]
    by_cases hleft : s.latencyLeft ≤ 1
    · rw [max_eq_left hleft, runEdges_cons_of_next (edge_busy_completes hrst hu hp hleft)]
      refine ⟨fun hlen => by omega, fun hlen => ?_⟩
      obtain rfl : ds = [] := List.eq_nil_of_length_eq_zero (by omega)
      exact ⟨_, rfl, complete_phase _ _, latched_complete _ _, responseOutcome_complete _ _⟩
    · rw [runEdges_cons_of_next (edge_busy_of_waiting hrst hu hp (by omega))]
      obtain ⟨hfewer, hexact⟩ := ih (waitEdge s) hp hrest
      simp only [waitEdge_latencyLeft, latched_waitEdge] at hfewer hexact
      exact ⟨fun hlen => hfewer (by omega), fun hlen => hexact (by omega)⟩

/-- Settles O24: the scripted cycle meets BUSY with the latency elapsed, which is how `withFetchWord` leaves the FAU. -/
theorem stepRunsDecodedCommand : Obligations.StepRunsDecodedCommand := by
  have scripted : ∀ (s : State) (d : Drive) (ds : List Drive), s.script = d :: ds → d.rst = false → usesNothing d →
      s.phase = .busy → s.latencyLeft ≤ 1 →
      step s = exec (decode (commandWord s.opc s.opa s.opb)) { s with script := ds } := by
    intro s d ds hscript hrst hu hp hleft
    simp only [step, hscript]
    exact edge_busy_of_elapsed (s := { s with script := ds }) hrst hu hp hleft
  refine ⟨scripted, fun s w hw => ?_⟩
  have hstep := scripted (s.withFetchWord 514 w) Drive.idle s.script rfl rfl rfl rfl le_rfl
  simp only [State.withFetchWord, Nat.mod_eq_of_lt hw, commandWord_fields] at hstep ⊢
  exact hstep

/-! Runs of edges. -/

/-- What every edge keeps, every run of edges keeps. -/
theorem runEdges_keeps {p : State → Prop} (hp : ∀ d s t, p s → edge d s = .next t → p t) {ds : List Drive} {s t : State}
    (hs : p s) (h : runEdges ds s = .next t) : p t := by
  induction ds generalizing s with
  | nil => injection h with h; exact h ▸ hs
  | cons d ds ih =>
    cases hd : edge d s with
    | next u => rw [runEdges_cons_of_next hd] at h; exact ih (hp d s u hs hd) h
    | fault f => simp [runEdges, hd] at h
    | refused r => simp [runEdges, hd] at h

/-- R57: the n-th response stands for the n-th command. -/
theorem nth_response_of_inv {s : State} (hs : Inv s) {n : Nat} {q : Response} (hq : s.delivered[n]? = some q) :
    ∃ c, s.issued[n]? = some c ∧ responseOutcome q = commandOutcome c := by
  have hn : n < s.delivered.length := (List.getElem?_eq_some_iff.1 hq).1
  have horder := congrArg (·[n]?) hs.inOrder
  simp only [List.getElem?_map, hq, List.getElem?_take_of_lt hn, Option.map_some] at horder
  obtain ⟨c, hc, hout⟩ := Option.map_eq_some_iff.1 horder.symm
  exact ⟨c, hc, hout.symm⟩

/-- The data of a good response to a command lies in Fp (R17). -/
theorem response_data_lt {q : Response} {c : Command} (h : responseOutcome q = commandOutcome c) (hgood : q.err = false) :
    q.data.toNat < P := by
  simp only [responseOutcome, hgood, Bool.false_eq_true, if_false] at h
  exact outcome_lt h.symm

/-- Settles O43: the invariants hold after a reset edge and along every run of edges from there. -/
theorem responsesInIssueOrder : Obligations.ResponsesInIssueOrder := by
  intro d ds s t u hrst hreset hrun n q hq
  obtain rfl := edge_reset_eq hrst hreset
  have hinv : Inv u := runEdges_keeps (fun _ _ _ => edge_keeps_inv) (inv_resetEdge s) hrun
  obtain ⟨c, hc, hout⟩ := nth_response_of_inv hinv hq
  exact ⟨c, hc, hout, response_data_lt hout⟩

/-! The abstraction of a state in each phase (R32). -/

theorem abstraction_of_unreset {s : State} (h : s.phase = .unreset) : abstraction s = .unreset := by simp [abstraction, h]

theorem abstraction_of_idle {s : State} (h : s.phase = .idle) : abstraction s = .idle := by simp [abstraction, h]

theorem abstraction_of_busy {s : State} (h : s.phase = .busy) : abstraction s = .busy (latched s) := by
  simp [abstraction, h]

theorem abstraction_of_resp {s : State} (h : s.phase = .resp) :
    abstraction s = .resp (responseOutcome (responseWires s)) := by
  simp [abstraction, h]

theorem abstraction_congr {s t : State} (hphase : t.phase = s.phase) (hlatched : latched t = latched s)
    (hwires : responseWires t = responseWires s) : abstraction t = abstraction s := by
  simp only [abstraction, hphase, hlatched, hwires]

@[simp] theorem abstractStep_reset (a : AbstractState) : abstractStep a .reset = some .idle := by cases a <;> rfl

theorem abstraction_capture (d : Drive) (s : State) : abstraction (capture d s) = abstraction s :=
  abstraction_congr (by simp) (by simp) (by simp)

theorem labelOf_capture (d e : Drive) (s : State) : labelOf e (capture d s) = labelOf e s := by
  simp [labelOf, latencyElapsed]

/-- The commuting diagram of R32, edge by edge: a labelled edge is the abstract machine's step, any other one a stutter. -/
theorem clock_refines {d : Drive} {s t : State} (h : clock d s = .next t) :
    (labelOf d s = none ∧ abstraction t = abstraction s) ∨
    ∃ l, labelOf d s = some l ∧ abstractStep (abstraction s) l = some (abstraction t) := by
  rcases clock_cases h with ⟨hrst, rfl⟩ | ⟨hrst, hp, -, -, rfl⟩ | ⟨hrst, hp, hvalid, rfl⟩ | ⟨hrst, hp, hvalid, rfl⟩ |
    ⟨hrst, hp, hleft, rfl⟩ | ⟨hrst, hp, hleft, rfl⟩ | ⟨hrst, hp, hready, rfl⟩ | ⟨hrst, hp, hready, rfl⟩
  · exact .inr ⟨.reset, by simp [labelOf, hrst], by simp [abstraction_of_idle (resetEdge_phase s)]⟩
  · exact .inl ⟨by simp [labelOf, hrst, hp], by simp [abstraction_of_unreset, hp]⟩
  · exact .inr ⟨.issue (presented d), by simp [labelOf, hrst, hp, hvalid, presented],
      by simp [abstraction_of_idle hp, abstraction_of_busy (issue_phase _ s), abstractStep]⟩
  · exact .inl ⟨by simp [labelOf, hrst, hp, hvalid], rfl⟩
  · exact .inl ⟨by simp [labelOf, hrst, hp, latencyElapsed, hleft], by simp [abstraction_of_busy, hp]⟩
  · exact .inr ⟨.complete, by simp [labelOf, hrst, hp, latencyElapsed, hleft],
      by simp [abstraction_of_busy hp, abstraction_of_resp (complete_phase _ s), abstractStep]⟩
  · exact .inr ⟨.consume (responseOutcome (responseWires s)), by simp [labelOf, hrst, hp, hready],
      by simp [abstraction_of_resp hp, abstraction_of_idle (consume_phase s), abstractStep]⟩
  · exact .inl ⟨by simp [labelOf, hrst, hp, hready], rfl⟩

/-- Settles O44: defining a temporary is invisible to the abstract machine, and the state machine's edge refines it. -/
theorem edgeRefinesAbstractMachine : Obligations.EdgeRefinesAbstractMachine := by
  intro d s t h
  obtain ⟨-, -, hclock⟩ := edge_next h
  have hrefines := clock_refines hclock
  rw [labelOf_capture, abstraction_capture] at hrefines
  rcases hrefines with ⟨hlabel, habs⟩ | ⟨l, hlabel, habs⟩
  · simpa only [hlabel] using habs
  · simpa only [hlabel] using habs

end Sys2Proof.Machine
end

section
/-! PROOFS. The sequencer's step: when it answers, and how a reset makes it present its line again
(30_encoding.md R79, R81; 70_reset_and_hazards.md R172). -/

namespace Sys2Proof.Machine

/-! Which edge a step is (R31). -/

theorem step_scripted {s : State} {d : Drive} {ds : List Drive} (h : s.script = d :: ds) :
    step s = edge d { s with script := ds } := by
  simp [step, h]

theorem step_of_plan_drive {s u : State} {d : Drive} (hscript : s.script = []) (h : plan s = .drive d u) :
    step s = edge d u := by
  simp [step, hscript, h]

theorem step_of_plan_stop {s : State} {f : Fault} (hscript : s.script = []) (h : plan s = .stop f) :
    step s = .fault f := by
  simp [step, hscript, h]

theorem plan_awaiting_resp {s : State} {n : Nat} (ha : s.awaiting = some n) (hp : s.phase = .resp) :
    plan s = .drive (takeDrive n s) { s with line := s.line + 1, awaiting := none } := by
  simp [plan, ha, rspValid, hp]

theorem plan_awaiting_of_ne_resp {s : State} {n : Nat} (ha : s.awaiting = some n) (hp : s.phase ≠ .resp) :
    plan s = .drive Drive.ready s := by
  simp [plan, ha, rspValid_of_ne_resp hp]

theorem plan_line {s : State} {l : HostLine} (ha : s.awaiting = none) (hl : s.program[s.line]? = some l) :
    plan s = runLine s l := by
  simp [plan, ha, hl]

theorem plan_no_line {s : State} (ha : s.awaiting = none) (hl : s.program[s.line]? = none) :
    plan s = .drive (if s.program.isEmpty then Drive.idle else Drive.ready) s := by
  simp [plan, ha, hl]

/-! When each of these edges answers. -/

/-- A cycle that only waits for a response with `rsp_ready = 1`, or presents a command, is a duty kept after the first reset. -/
theorem edge_ready_answers_iff {d : Drive} {s : State} (hu : usesNothing d) (hrst : d.rst = false)
    (hready : d.rspReady = true) : (∃ t, edge d s = .next t) ↔ s.phase ≠ .unreset := by
  rw [edge_of_usesNothing hu, clock_answers_iff]
  simp [hrst, hready]

/-- The sequencer looks at `rsp_err` first, so only a good response to a defined temporary stops it (R79). -/
theorem edge_take_answers_iff {s : State} (n : Nat) (hp : s.phase = .resp) :
    (∃ t, edge (takeDrive n s) { s with line := s.line + 1, awaiting := none } = .next t) ↔
      (s.err = false → lookupTemp n s.temps = none) := by
  have hv : rspValid false s = true := by simp [rspValid, hp]
  rw [edge_answers_iff]
  constructor
  · intro hadm hgood
    exact (hadm.defineWhenGood n (by simp [takeDrive, hgood])).2.2
  · intro hfree
    refine ⟨fun hq => absurd (hp.symm.trans hq) (by decide), fun _ => hv, fun hdata => ?_, fun m hm => ?_⟩
    · cases hdata
    · cases hs : s.err with
      | true => simp [takeDrive, hs] at hm
      | false =>
        obtain rfl : n = m := by simpa [takeDrive, hs] using hm
        exact ⟨hv, rfl, hfree hs⟩

/-! The same for the step, by what the sequencer meets. -/

theorem step_answers_awaiting_iff {s : State} {n : Nat} (hscript : s.script = []) (ha : s.awaiting = some n) :
    (∃ t, step s = .next t) ↔
      s.phase ≠ .unreset ∧ (s.phase = .resp → s.err = false → lookupTemp n s.temps = none) := by
  by_cases hp : s.phase = .resp
  · rw [step_of_plan_drive hscript (plan_awaiting_resp ha hp), edge_take_answers_iff n hp]
    simp [hp]
  · rw [step_of_plan_drive hscript (plan_awaiting_of_ne_resp ha hp), edge_ready_answers_iff rfl rfl rfl]
    simp [hp]

theorem step_answers_line_iff {s : State} {l : HostLine} (hscript : s.script = []) (ha : s.awaiting = none)
    (hl : s.program[s.line]? = some l) :
    (∃ t, step s = .next t) ↔ s.phase ≠ .unreset ∧ (∀ x ∈ lineSources l, readable s.temps x) ∧
      (∀ m, jumpLabel s l = some m → .label m ∈ s.program) := by
  rcases runLine_cases s l with ⟨d, u, hrun, hu, hrst, hready, hphase, hsources, htarget⟩ | ⟨f, hrun, hnot⟩
  · rw [step_of_plan_drive hscript ((plan_line ha hl).trans hrun), edge_ready_answers_iff hu hrst hready, hphase]
    exact ⟨fun hp => ⟨hp, hsources, htarget⟩, And.left⟩
  · rw [step_of_plan_stop hscript ((plan_line ha hl).trans hrun)]
    exact ⟨fun ⟨_, h⟩ => (by cases h), fun ⟨_, h⟩ => absurd h hnot⟩

theorem step_answers_no_line_iff {s : State} (hscript : s.script = []) (ha : s.awaiting = none)
    (hl : s.program[s.line]? = none) :
    (∃ t, step s = .next t) ↔ (s.phase = .unreset → s.program = []) := by
  rw [step_of_plan_drive hscript (plan_no_line ha hl)]
  by_cases hprogram : s.program = []
  · rw [hprogram, edge_of_usesNothing (by rfl), clock_answers_iff]
    simp [Drive.idle]
  · rw [if_neg (by simpa using hprogram), edge_ready_answers_iff rfl rfl rfl]
    simp [hprogram]

/-- The duties of a step whose cycle is scripted are those of the cycle. -/
theorem stepAdmitted_scripted_iff {s : State} {d : Drive} {ds : List Drive} (h : s.script = d :: ds) :
    StepAdmitted s ↔ Admitted d { s with script := ds } := by
  constructor
  · intro hadm
    obtain ⟨hbefore, herr, hdata, hdefine⟩ := hadm.scripted d ds h
    exact ⟨hbefore, herr, hdata, hdefine⟩
  · rintro ⟨hbefore, herr, hdata, hdefine⟩
    refine ⟨fun e es he => ?_, ?_, ?_, ?_, ?_⟩
    · obtain ⟨rfl, -⟩ := List.cons.inj (h.symm.trans he)
      exact ⟨hbefore, herr, hdata, hdefine⟩
    all_goals simp [h]

/-- The duties of a step of the sequencer, by what it meets. -/
theorem stepAdmitted_sequencer_iff {s : State} (h : s.script = []) : StepAdmitted s ↔
    (s.phase = .unreset → s.awaiting = none ∧ s.program = []) ∧
    (∀ n, s.awaiting = some n → s.phase = .resp → s.err = false → lookupTemp n s.temps = none) ∧
    (s.awaiting = none → ∀ l, s.program[s.line]? = some l → (∀ x ∈ lineSources l, readable s.temps x) ∧
      ∀ m, jumpLabel s l = some m → .label m ∈ s.program) := by
  constructor
  · rintro ⟨-, hbefore, hawaited, hsources, htarget⟩
    exact ⟨hbefore h, hawaited h, fun ha l hl => ⟨hsources h ha l hl, fun m => htarget h ha l m hl⟩⟩
  · rintro ⟨hbefore, hawaited, hline⟩
    exact ⟨by simp [h], fun _ => hbefore, fun _ => hawaited, fun _ ha l hl => (hline ha l hl).1,
      fun _ ha l m hl => (hline ha l hl).2 m⟩

/-- Settles O49: a scripted cycle by O36, and the sequencer's by whether it awaits a response, stands on a line, or neither. -/
theorem stepAnswersExactlyWhenAdmitted : Obligations.StepAnswersExactlyWhenAdmitted := by
  intro s
  cases hscript : s.script with
  | cons d ds => rw [step_scripted hscript, edge_answers_iff, stepAdmitted_scripted_iff hscript]
  | nil =>
    rw [stepAdmitted_sequencer_iff hscript]
    cases ha : s.awaiting with
    | some n =>
      rw [step_answers_awaiting_iff hscript ha]
      simp
    | none =>
      cases hl : s.program[s.line]? with
      | some l =>
        have hprogram : s.program ≠ [] := fun hnil => by simp [hnil] at hl
        rw [step_answers_line_iff hscript ha hl]
        simp [hprogram]
      | none =>
        rw [step_answers_no_line_iff hscript ha hl]
        simp

/-! Presenting a line's command in IDLE (R44, R79). -/

/-- The command as the ports carry it when the host presents an instruction (R70). -/
def commandOf (i : Instr) : Command := { op := opcodeOf i, a := operandA i, b := operandB i }

theorem wordOfCommand_commandOf (i : Instr) : wordOfCommand (commandOf i) = encode i := rfl

theorem assemble2_ok {ts : List (Nat × Word)} {x y : Source} {a b : Word} (mk : Word → Word → Instr)
    (hx : sourceValue ts x = .ok a) (hy : sourceValue ts y = .ok b) : assemble2 mk ts x y = .ok (mk a b) := by
  simp [assemble2, hx, hy]

theorem assemble1_ok {ts : List (Nat × Word)} {x : Source} {a : Word} (mk : Word → Instr)
    (hx : sourceValue ts x = .ok a) : assemble1 mk ts x = .ok (mk a) := by
  simp [assemble1, hx]

/-- A line whose sources have values is issued in IDLE as its command, and its temporary is awaited. -/
theorem step_issues_line {s : State} {l : HostLine} {n : Nat} {i : Instr} (hscript : s.script = []) (ha : s.awaiting = none)
    (hp : s.phase = .idle) (hl : s.program[s.line]? = some l) (hrun : runLine s l = present n (.ok i) s) :
    step s = .next (issue (commandOf i) { s with awaiting := some n }) := by
  have hready : cmdReady false s = true := by simp [cmdReady, hp]
  have hplan : plan s = .drive (presentDrive i) { s with awaiting := some n } := by
    rw [plan_line ha hl, hrun, present, if_pos hready]
  rw [step_of_plan_drive hscript hplan, edge_of_usesNothing rfl]
  exact clock_idle (d := presentDrive i) (s := { s with awaiting := some n }) rfl hp

theorem runSteps_succ_of_next {s t : State} (k : Nat) (h : step s = .next t) : runSteps (k + 1) s = runSteps k t := by
  simp [runSteps, h]

/-- A reset in the last scripted cycle, and the sequencer issues the line it stands on (R172, log 13). -/
theorem runSteps_reset_reissues {d : Drive} {s : State} {l : HostLine} {n : Nat} {i : Instr} (hscript : s.script = [d])
    (hrst : d.rst = true) (hu : usesNothing d) (hl : s.program[s.line]? = some l)
    (hrun : ∀ t : State, t.temps = s.temps → runLine t l = present n (.ok i) t) :
    ∃ t, runSteps 2 s = .next t ∧ t.phase = .busy ∧ t.issued = [commandOf i] ∧ t.awaiting = some n ∧ t.line = s.line := by
  have hreset : step s = .next (resetEdge { s with script := [] }) := by
    rw [step_scripted hscript, edge_reset_of_usesNothing hu hrst]
  have hissue := step_issues_line (s := resetEdge { s with script := [] }) rfl rfl rfl hl (hrun _ rfl)
  refine ⟨issue (commandOf i) { resetEdge { s with script := [] } with awaiting := some n }, ?_, rfl, rfl, rfl, rfl⟩
  rw [runSteps_succ_of_next 1 hreset, runSteps_succ_of_next 0 hissue, runSteps]

/-- Settles O51: the reset edge is `resetEdge`, after which the sequencer stands in IDLE on its line, awaiting nothing. -/
theorem resetMakesSequencerReissue : Obligations.ResetMakesSequencerReissue := by
  refine ⟨fun d s t hrst h => edge_reset_eq hrst h, fun d s n x y a b hscript hrst hu hx hy => ?_⟩
  refine ⟨fun hl => runSteps_reset_reissues (i := .fadd a b) hscript hrst hu hl fun t ht => ?_,
    fun hl => runSteps_reset_reissues (i := .fsub a b) hscript hrst hu hl fun t ht => ?_,
    fun hl => runSteps_reset_reissues (i := .fmul a b) hscript hrst hu hl fun t ht => ?_,
    fun hl => runSteps_reset_reissues (i := .finv a) hscript hrst hu hl fun t ht => ?_⟩
  · rw [runLine, ht, assemble2_ok Instr.fadd hx hy]
  · rw [runLine, ht, assemble2_ok Instr.fsub hx hy]
  · rw [runLine, ht, assemble2_ok Instr.fmul hx hy]
  · rw [runLine, ht, assemble1_ok Instr.finv hx]

end Sys2Proof.Machine
end

section
/-! PROOFS. The 32-byte view of a word as its digits to the base 256 (20_memory.md R54). -/

namespace Sys2Proof.Machine

theorem bytesNumber_append_singleton (bs : List (BitVec 8)) (x : BitVec 8) :
    bytesNumber (bs ++ [x]) = 256 * bytesNumber bs + x.toNat := by
  simp [bytesNumber]

/-- A big-endian byte string is read as the digits of its number, the last byte being the least significant. -/
theorem bytesNumber_eq_ofDigits (bs : List (BitVec 8)) :
    bytesNumber bs = Nat.ofDigits 256 (bs.map BitVec.toNat).reverse := by
  induction bs using List.reverseRecOn with
  | nil => rfl
  | append_singleton bs x ih =>
    rw [bytesNumber_append_singleton, ih]
    simp [Nat.ofDigits_cons, Nat.add_comm]

theorem digit_lt_of_mem_bytes {bs : List (BitVec 8)} {n : Nat} (h : n ∈ (bs.map BitVec.toNat).reverse) : n < 256 := by
  obtain ⟨x, -, rfl⟩ := List.mem_map.1 (List.mem_reverse.1 h)
  exact x.isLt

theorem bytesNumber_lt (bs : List (BitVec 8)) : bytesNumber bs < 256 ^ bs.length := by
  rw [bytesNumber_eq_ofDigits]
  simpa using Nat.ofDigits_lt_base_pow_length (by decide : 1 < 256) fun _ => digit_lt_of_mem_bytes

/-- Byte strings of one length with one number are equal. -/
theorem bytesNumber_inj {bs cs : List (BitVec 8)} (hlen : bs.length = cs.length) (h : bytesNumber bs = bytesNumber cs) :
    bs = cs := by
  rw [bytesNumber_eq_ofDigits, bytesNumber_eq_ofDigits] at h
  have hdigits := Nat.ofDigits_inj_of_len_eq (by decide : 1 < 256) (by simpa using hlen)
    (fun _ => digit_lt_of_mem_bytes) (fun _ => digit_lt_of_mem_bytes) h
  exact List.map_injective_iff.2 (fun _ _ => BitVec.eq_of_toNat_eq) (List.reverse_injective hdigits)

@[simp] theorem byteView_length (v : Word) : (byteView v).length = 32 := by simp [byteView]

theorem byteOf_eq_ofNat (v : Word) (j : Nat) : byteOf v j = BitVec.ofNat 8 (v.toNat / 2 ^ (248 - 8 * j)) := by
  rw [byteOf, BitVec.extractLsb', Nat.shiftRight_eq_div_pow]

/-- The first `k` bytes of the view are the number of the word's highest `8 * k` bits. -/
theorem bytesNumber_highest_bytes (v : Word) {k : Nat} (hk : k ≤ 32) :
    bytesNumber ((List.range k).map (byteOf v)) = v.toNat / 2 ^ (256 - 8 * k) := by
  induction k with
  | zero => simpa [bytesNumber] using (Nat.div_eq_of_lt v.isLt).symm
  | succ k ih =>
    have hhigh : v.toNat / 2 ^ (256 - 8 * k) = v.toNat / 2 ^ (248 - 8 * k) / 2 ^ 8 := by
      rw [Nat.div_div_eq_div_mul, show 256 - 8 * k = 248 - 8 * k + 8 by omega, pow_add]
    rw [List.range_succ, List.map_append, List.map_singleton, bytesNumber_append_singleton, ih (by omega), hhigh,
      byteOf_eq_ofNat, BitVec.toNat_ofNat, show 256 - 8 * (k + 1) = 248 - 8 * k by omega]
    exact Nat.div_add_mod _ (2 ^ 8)

@[simp] theorem bytesNumber_byteView (v : Word) : bytesNumber (byteView v) = v.toNat := by
  simpa [byteView] using bytesNumber_highest_bytes v le_rfl

theorem wordOfBytes_of_length {bs : List (BitVec 8)} (h : bs.length = 32) :
    wordOfBytes bs = some (BitVec.ofNat 256 (bytesNumber bs)) := if_pos h

/-- Settles O8: the view's number is the word's, and a string of 32 bytes is determined by its number. -/
theorem byteViewBigEndian : Obligations.ByteViewBigEndian := by
  refine ⟨fun v => ⟨byteView_length v, ?_, fun j hj => ?_⟩, fun bs hlen => ⟨_, wordOfBytes_of_length hlen, ?_⟩⟩
  · rw [wordOfBytes_of_length (byteView_length v), bytesNumber_byteView, BitVec.ofNat_toNat, BitVec.setWidth_eq]
  · simp [byteView, hj, byteOf_eq_ofNat]
  · have hlt : bytesNumber bs < 2 ^ 256 := by simpa [hlen] using bytesNumber_lt bs
    refine bytesNumber_inj (by rw [byteView_length, hlen]) ?_
    rw [bytesNumber_byteView, BitVec.toNat_ofNat, Nat.mod_eq_of_lt hlt]

end Sys2Proof.Machine
end

section
/-! PROOFS. The two handshakes at an edge: which edges issue, which deliver, what holds meanwhile, and which wires an edge does not read
(20_memory.md R43 to R52). -/

namespace Sys2Proof.Machine

/-! The output wires and the two handshakes as conditions on the phase (R43, R44, R48). -/

theorem cmdReady_eq_true_iff {rst : Bool} {s : State} : cmdReady rst s = true ↔ s.phase = .idle ∧ rst = false := by
  simp [cmdReady]

theorem rspValid_eq_true_iff {rst : Bool} {s : State} : rspValid rst s = true ↔ s.phase = .resp ∧ rst = false := by
  simp [rspValid]

theorem issues_eq_true_iff {d : Drive} {s : State} :
    issues d s = true ↔ d.rst = false ∧ d.cmdValid = true ∧ cmdReady d.rst s = true := by
  simp [issues, and_assoc]

theorem consumes_eq_true_iff {d : Drive} {s : State} :
    consumes d s = true ↔ d.rst = false ∧ rspValid d.rst s = true ∧ d.rspReady = true := by
  simp [consumes, and_assoc]

/-- An issue edge is made in IDLE. -/
theorem idle_of_issues {d : Drive} {s : State} (h : issues d s = true) :
    d.rst = false ∧ d.cmdValid = true ∧ s.phase = .idle := by
  obtain ⟨hrst, hvalid, hready⟩ := issues_eq_true_iff.1 h
  exact ⟨hrst, hvalid, (cmdReady_eq_true_iff.1 hready).1⟩

/-- A consume edge is made in RESP. -/
theorem resp_of_consumes {d : Drive} {s : State} (h : consumes d s = true) :
    d.rst = false ∧ s.phase = .resp ∧ d.rspReady = true := by
  obtain ⟨hrst, hvalid, hready⟩ := consumes_eq_true_iff.1 h
  exact ⟨hrst, (rspValid_eq_true_iff.1 hvalid).1, hready⟩

/-! A completion leaves the host's records as they were (R31). -/

@[simp] theorem complete_issued (o : ExecOutcome) (s : State) : (complete o s).issued = s.issued := by cases o <;> rfl
@[simp] theorem complete_delivered (o : ExecOutcome) (s : State) : (complete o s).delivered = s.delivered := by
  cases o <;> rfl
@[simp] theorem complete_lastErr (o : ExecOutcome) (s : State) : (complete o s).lastErr = s.lastErr := by cases o <;> rfl

/-- `capture` writes the temporaries and nothing else. -/
theorem capture_eq (d : Drive) (s : State) : capture d s = { s with temps := (capture d s).temps } := by
  cases h : d.define <;> simp [capture, h]

/-! The edges of the two handshakes. -/

/-- Outside RESP no temporary is defined, so an edge that answers is the state machine's alone. -/
theorem edge_next_of_ne_resp {d : Drive} {s t : State} (hp : s.phase ≠ .resp) (h : edge d s = .next t) :
    clock d s = .next t := by
  obtain ⟨-, hf, hclock⟩ := edge_next h
  have hdefine : d.define = none := Option.eq_none_iff_forall_ne_some.2 fun n hn => hp (phase_of_define hf hn).1
  rwa [capture_of_define_none hdefine] at hclock

theorem edge_issue_eq {d : Drive} {s t : State} (hi : issues d s = true) (h : edge d s = .next t) :
    t = issue (presented d) s := by
  obtain ⟨hrst, hvalid, hp⟩ := idle_of_issues hi
  have hclock := edge_next_of_ne_resp (by simp [hp]) h
  rw [clock_idle hrst hp, if_pos hvalid] at hclock
  injection hclock with hclock
  exact hclock.symm

/-- An edge in RESP without reset consumes the response or keeps it. -/
theorem edge_resp_eq {d : Drive} {s t : State} (hrst : d.rst = false) (hp : s.phase = .resp) (h : edge d s = .next t) :
    t = if d.rspReady then consume (capture d s) else capture d s := by
  obtain ⟨-, -, hclock⟩ := edge_next h
  rw [clock_resp hrst (by simpa using hp)] at hclock
  injection hclock with hclock
  exact hclock.symm

theorem edge_consume_eq {d : Drive} {s t : State} (hc : consumes d s = true) (h : edge d s = .next t) :
    t = consume (capture d s) := by
  obtain ⟨hrst, hp, hready⟩ := resp_of_consumes hc
  rw [edge_resp_eq hrst hp h, if_pos hready]

/-- An edge that is no issue edge leaves the record of commands, but for a reset, and does not enter BUSY (R44). -/
theorem edge_takes_nothing {d : Drive} {s t : State} (hi : ¬ issues d s = true) (h : edge d s = .next t) :
    t.issued = (if d.rst then [] else s.issued) ∧ (t.phase = .busy → s.phase = .busy) := by
  obtain ⟨-, -, hclock⟩ := edge_next h
  rcases clock_cases hclock with ⟨hrst, rfl⟩ | ⟨hrst, hp, -, -, rfl⟩ | ⟨hrst, hp, hvalid, -⟩ | ⟨hrst, -, -, rfl⟩ |
    ⟨hrst, -, -, rfl⟩ | ⟨hrst, -, -, rfl⟩ | ⟨hrst, -, -, rfl⟩ | ⟨hrst, -, -, rfl⟩
  · simp [hrst]
  · simp [hrst]
  · rw [capture_phase] at hp
    exact absurd (issues_eq_true_iff.2 ⟨hrst, hvalid, cmdReady_eq_true_iff.2 ⟨hp, hrst⟩⟩) hi
  all_goals simp [hrst]

/-- An edge that is no consume edge delivers nothing and leaves the remembered `err` bit (R48). -/
theorem edge_delivers_nothing {d : Drive} {s t : State} (hc : ¬ consumes d s = true) (h : edge d s = .next t) :
    t.delivered = (if d.rst then [] else s.delivered) ∧ t.lastErr = s.lastErr := by
  obtain ⟨-, -, hclock⟩ := edge_next h
  rcases clock_cases hclock with ⟨hrst, rfl⟩ | ⟨hrst, -, -, -, rfl⟩ | ⟨hrst, -, -, rfl⟩ | ⟨hrst, -, -, rfl⟩ |
    ⟨hrst, -, -, rfl⟩ | ⟨hrst, -, -, rfl⟩ | ⟨hrst, hp, hready, -⟩ | ⟨hrst, -, -, rfl⟩
  rotate_left 6
  · rw [capture_phase] at hp
    exact absurd (consumes_eq_true_iff.2 ⟨hrst, rspValid_eq_true_iff.2 ⟨hp, hrst⟩, hready⟩) hc
  all_goals simp [hrst]

/-- Settles O25: the issue edge is `issue`, and every other case of the edge takes no command. -/
theorem commandTakenOnlyAtIssueEdge : Obligations.CommandTakenOnlyAtIssueEdge := by
  intro d s t h
  rw [← issues_eq_true_iff]
  refine ⟨fun hi => ?_, fun hi => edge_takes_nothing hi h⟩
  obtain rfl := edge_issue_eq hi h
  exact ⟨rfl, rfl⟩

/-- Settles O28: the consume edge is `consume`, and every other case of the edge delivers nothing. -/
theorem responseDeliveredOnce : Obligations.ResponseDeliveredOnce := by
  refine ⟨fun d s hu hc => ?_, fun d s t h => ?_⟩
  · obtain ⟨hrst, hp, -⟩ := resp_of_consumes hc
    exact ⟨_, by rw [edge_of_usesNothing hu, clock_resp hrst hp]⟩
  · rw [← consumes_eq_true_iff]
    refine ⟨fun hc => ?_, fun hc => edge_delivers_nothing hc h⟩
    obtain rfl := edge_consume_eq hc h
    simp [rspValid]

/-! A response that is not consumed (R49). -/

/-- A cycle without reset and without `rsp_ready` keeps a pending response, whatever temporary it defines. -/
theorem edge_keeps_response {d : Drive} {s t : State} (hp : s.phase = .resp) (hrst : d.rst = false)
    (hready : d.rspReady = false) (h : edge d s = .next t) : t = { s with temps := t.temps } := by
  obtain rfl : t = capture d s := by simpa [hready] using edge_resp_eq hrst hp h
  exact capture_eq d s

/-- A run that answers makes its first edge and then runs on. -/
theorem runEdges_cons_eq_next {d : Drive} {ds : List Drive} {s t : State} (h : runEdges (d :: ds) s = .next t) :
    ∃ u, edge d s = .next u ∧ runEdges ds u = .next t := by
  cases hd : edge d s with
  | next u => exact ⟨u, rfl, by rwa [runEdges_cons_of_next hd] at h⟩
  | fault f => simp [runEdges, hd] at h
  | refused r => simp [runEdges, hd] at h

theorem runEdges_keeps_response {ds : List Drive} {s t : State} (hp : s.phase = .resp)
    (hds : ∀ d ∈ ds, d.rst = false ∧ d.rspReady = false) (h : runEdges ds s = .next t) :
    t = { s with temps := t.temps } := by
  induction ds generalizing s with
  | nil => injection h with h; subst h; rfl
  | cons d ds ih =>
    obtain ⟨⟨hrst, hready⟩, hrest⟩ := List.forall_mem_cons.1 hds
    obtain ⟨u, hu, hrun⟩ := runEdges_cons_eq_next h
    have hkeep := edge_keeps_response hp hrst hready hu
    have hpu : u.phase = .resp := by rw [hkeep]; exact hp
    have hkeeps := ih hpu hrest hrun
    rw [hkeeps, hkeep]

/-- Settles O29, by induction on the cycles: each keeps the whole state but the temporaries. -/
theorem pendingResponseHolds : Obligations.PendingResponseHolds := by
  refine ⟨fun ds s t hp hds h => ?_, fun d s t hp h hleaves => ?_⟩
  · have hkeeps := runEdges_keeps_response hp hds h
    exact ⟨by rw [hkeeps]; exact hp, by rw [hkeeps]; rfl, hkeeps⟩
  · by_contra hheld
    simp only [not_or, Bool.not_eq_true] at hheld
    have hkeep := edge_keeps_response hp hheld.1 hheld.2 h
    exact hleaves (by rw [hkeep]; exact hp)

/-! Wires that an edge does not read (R46, R51). -/

/-- Two cycles with the same uses of the response wires make the same edge where the state machine does not tell them apart. -/
theorem edge_congr {d e : Drive} {s : State} (huse : usesResponse e = usesResponse d) (hread : readFault e s = readFault d s)
    (hclock : clock e (capture e s) = clock d (capture d s)) : edge e s = edge d s := by
  simp only [edge, huse, hread, hclock]

/-- In BUSY and in RESP the state machine does not read the command wires (R31). -/
theorem clock_ignores_command (d : Drive) {s : State} (v : Bool) (op : BitVec 2) (a b : Word)
    (hp : s.phase = .busy ∨ s.phase = .resp) :
    clock { d with cmdValid := v, cmdOp := op, cmdA := a, cmdB := b } s = clock d s := by
  rcases hp with hp | hp
  · simp [clock, hp]
  · simp [clock, hp]

/-- At a reset edge, in IDLE and in BUSY the state machine does not read `rsp_ready` (R31, R33). -/
theorem clock_ignores_ready (d : Drive) {s : State} (r : Bool) (hp : s.phase ≠ .unreset) (hv : rspValid d.rst s = false) :
    clock { d with rspReady := r } s = clock d s := by
  cases hrst : d.rst with
  | true => simp [clock, hrst]
  | false =>
    cases hq : s.phase with
    | unreset => exact absurd hq hp
    | idle => simp [clock, hrst, hq]
    | busy => simp [clock, hrst, hq]
    | resp => simp [rspValid, hrst, hq] at hv

/-- Settles O26: the issue edge is `issue`, and in BUSY and in RESP neither the uses of the response wires nor the state machine
reads the command wires. -/
theorem issueLatchesAndIsolates : Obligations.IssueLatchesAndIsolates := by
  refine ⟨fun d s hu hrst hvalid hp => ⟨issue (presented d) s, ?_, rfl, rfl, rfl, rfl, rfl, rfl, rfl, rfl, ?_⟩,
    fun d s v op a b hp => edge_congr rfl rfl (clock_ignores_command d v op a b (by simpa using hp))⟩
  · rw [edge_of_usesNothing hu, clock_idle hrst hp, if_pos hvalid]
  · exact Nat.le_add_left 1 _

/-- Settles O30: where no response is valid the level of `rsp_ready` is not read, and in RESP it consumes the response. -/
theorem readyWithoutResponseHasNoEffect : Obligations.ReadyWithoutResponseHasNoEffect := by
  refine ⟨fun d s hp hv => edge_congr rfl rfl ?_, fun s hp => ⟨consume s, ?_, rfl, rfl⟩⟩
  · have hignores := fun r => clock_ignores_ready d (s := capture d s) r (by simpa using hp) (by simpa [rspValid] using hv)
    exact (hignores true).trans (hignores false).symm
  · rw [edge_of_usesNothing rfl, clock_resp rfl hp]
    rfl

/-! Unsound uses of the response wires (R50, R152). -/

theorem edge_faults_of_unsound {d : Drive} {s : State} (hp : s.phase ≠ .unreset) (hunsound : readFault d s ≠ none) :
    ∃ f, edge d s = .fault f := by
  obtain ⟨f, hf⟩ := Option.ne_none_iff_exists'.1 hunsound
  exact ⟨f, edge_of_readFault hp hf⟩

theorem readFault_err_without_response {d : Drive} {s : State} (herr : d.readErr = true) (hv : rspValid d.rst s = false) :
    readFault d s = some .errWithoutResponse := by
  simp [readFault, herr, hv]

theorem readFault_define_of_errored {d : Drive} {s : State} {n : Nat} (hn : d.define = some n) (he : s.err = true)
    (hv : rspValid d.rst s = true) : readFault d s = some .temporaryFromErroredResponse := by
  simp [readFault, hn, he, hv]

/-- Settles O35: each of these uses is one that `readFault` names. -/
theorem unsoundUseOfResponseFaults : Obligations.UnsoundUseOfResponseFaults := by
  refine fun d s hp => ⟨fun hdata hv => ?_, fun herr hv => ?_, fun hdata he => ?_, fun n hn he hv => ?_⟩
  · exact edge_faults_without_response hp hv (by simp [usesResponse, hdata])
  · exact edge_of_readFault hp (readFault_err_without_response herr hv)
  · refine edge_faults_of_unsound hp fun hf => ?_
    obtain ⟨-, hgood, -⟩ := readFault_eq_none.1 hf
    simpa [he] using (hgood hdata).2
  · exact edge_of_readFault hp (readFault_define_of_errored hn he hv)

end Sys2Proof.Machine
end

section
/-! PROOFS. The turnaround of a command, and that its outcome and its issue by the sequencer depend on nothing else
(20_memory.md R52, R56; 30_encoding.md R79; 70_reset_and_hazards.md R180). -/

namespace Sys2Proof.Machine

/-- How many edges without reset lie before the FAU can stand in IDLE: the latency left and the consume edge. -/
def edgesToIdle (s : State) : Nat :=
  match s.phase with
  | .unreset => 0
  | .idle => 0
  | .busy => s.latencyLeft + 1
  | .resp => 1

theorem edgesToIdle_of_idle {s : State} (h : s.phase = .idle) : edgesToIdle s = 0 := by simp [edgesToIdle, h]

theorem edgesToIdle_of_busy {s : State} (h : s.phase = .busy) : edgesToIdle s = s.latencyLeft + 1 := by
  simp [edgesToIdle, h]

theorem edgesToIdle_of_resp {s : State} (h : s.phase = .resp) : edgesToIdle s = 1 := by simp [edgesToIdle, h]

theorem edgesToIdle_capture (d : Drive) (s : State) : edgesToIdle (capture d s) = edgesToIdle s := by
  simp [edgesToIdle]

/-- An edge of the state machine without reset brings IDLE nearer by at most one edge (R31). -/
theorem clock_edgesToIdle {d : Drive} {s t : State} (hrst : d.rst = false) (h : clock d s = .next t) :
    edgesToIdle s ≤ edgesToIdle t + 1 := by
  rcases clock_cases h with ⟨hreset, -⟩ | ⟨-, hp, -, -, rfl⟩ | ⟨-, hp, -, rfl⟩ | ⟨-, -, -, rfl⟩ | ⟨-, hp, hleft, rfl⟩ |
    ⟨-, hp, hleft, rfl⟩ | ⟨-, hp, -, rfl⟩ | ⟨-, -, -, rfl⟩
  · simp [hrst] at hreset
  · simp [edgesToIdle, hp]
  · simp [edgesToIdle_of_idle hp]
  · exact Nat.le_succ _
  · rw [edgesToIdle_of_busy hp, edgesToIdle_of_busy ((waitEdge_phase s).trans hp), waitEdge_latencyLeft]
    omega
  · rw [edgesToIdle_of_busy hp, edgesToIdle_of_resp (complete_phase _ s)]
    omega
  · simp [edgesToIdle_of_resp hp]
  · exact Nat.le_succ _

theorem edge_edgesToIdle {d : Drive} {s t : State} (hrst : d.rst = false) (h : edge d s = .next t) :
    edgesToIdle s ≤ edgesToIdle t + 1 := by
  obtain ⟨-, -, hclock⟩ := edge_next h
  simpa [edgesToIdle_capture] using clock_edgesToIdle hrst hclock

/-- A run of `k` edges without reset brings IDLE nearer by at most `k` edges. -/
theorem runEdges_edgesToIdle {ds : List Drive} {s t : State} (hds : ∀ d ∈ ds, d.rst = false) (h : runEdges ds s = .next t) :
    edgesToIdle s ≤ edgesToIdle t + ds.length := by
  induction ds generalizing s with
  | nil => injection h with h; subst h; simp
  | cons d ds ih =>
    obtain ⟨hrst, hrest⟩ := List.forall_mem_cons.1 hds
    obtain ⟨u, hu, hrun⟩ := runEdges_cons_eq_next h
    have hedge := edge_edgesToIdle hrst hu
    have htail := ih hrest hrun
    rw [List.length_cons]
    omega

/-- Settles O39: an issue edge leaves `LATENCY + 1` edges to IDLE, a valid response has one to go and a ready FAU none. -/
theorem turnaroundBounds : Obligations.TurnaroundBounds := by
  refine ⟨fun d s t hi h => ?_, fun d s t hc h => ?_⟩
  · obtain ⟨-, -, hp⟩ := idle_of_issues hi
    obtain rfl := edge_issue_eq hi h
    refine ⟨rspValid_of_ne_resp (by simp [hp]) _, rspValid_of_ne_resp (by simp) _, fun ds u hds hrun => ?_⟩
    have hrun := runEdges_edgesToIdle hds hrun
    rw [edgesToIdle_of_busy (issue_phase _ s), issue_latencyLeft] at hrun
    have hready : u.phase = .idle → latency s.draws (presented d) + 1 ≤ ds.length := fun hidle => by
      rw [edgesToIdle_of_idle hidle] at hrun
      omega
    refine ⟨fun hv => ?_, fun hr => hready (cmdReady_eq_true_iff.1 hr).1, fun e he => ?_⟩
    · rw [edgesToIdle_of_resp (rspValid_eq_true_iff.1 hv).1] at hrun
      omega
    · obtain ⟨-, -, hidle⟩ := idle_of_issues he
      exact Nat.succ_le_succ (hready hidle)
  · obtain rfl := edge_consume_eq hc h
    rfl

/-- Settles O15: both states take the completion of the word's outcome, which writes ERR, and RES with the result. -/
theorem outcomeDependsOnWordOnly : Obligations.OutcomeDependsOnWordOnly := by
  intro c s s'
  refine ⟨_, _, exec_eq (decode c) s, exec_eq (decode c) s', by simp, ?_⟩
  cases outcomeOf (decode c) with
  | ok r => exact fun _ => rfl
  | zeroInverse => exact fun hok => by cases hok

/-- What the issue of a line leaves: BUSY with its command latched, its temporary awaited, and the same line (R79). -/
theorem step_latches_line {s : State} {l : HostLine} {n : Nat} {i : Instr} (hscript : s.script = []) (ha : s.awaiting = none)
    (hp : s.phase = .idle) (hl : s.program[s.line]? = some l) (hrun : runLine s l = present n (.ok i) s) :
    ∃ t, step s = .next t ∧ t.phase = .busy ∧ latched t = commandOf i ∧ t.awaiting = some n ∧ t.line = s.line :=
  ⟨_, step_issues_line hscript ha hp hl hrun, rfl, rfl, rfl, rfl⟩

/-- Settles O45: each of the four lines presents the command of its sources' values, which IDLE takes at once. -/
theorem hostLineIsIssued : Obligations.HostLineIsIssued := by
  intro s n x y a b hscript ha hp hx hy
  refine ⟨fun hl => step_latches_line (i := .fadd a b) hscript ha hp hl ?_,
    fun hl => step_latches_line (i := .fsub a b) hscript ha hp hl ?_,
    fun hl => step_latches_line (i := .fmul a b) hscript ha hp hl ?_,
    fun hl => step_latches_line (i := .finv a) hscript ha hp hl ?_⟩
  · rw [runLine, assemble2_ok Instr.fadd hx hy]
  · rw [runLine, assemble2_ok Instr.fsub hx hy]
  · rw [runLine, assemble2_ok Instr.fmul hx hy]
  · rw [runLine, assemble1_ok Instr.finv hx]

end Sys2Proof.Machine
end

section
/-! PROOFS. The command word, the response word and their decoding (30_encoding.md R70 to R72, R75 to R78). -/

namespace Sys2Proof

/-- The number of two fields set side by side. -/
theorem toNat_append_eq_mul_add {m n : Nat} (x : BitVec m) (y : BitVec n) :
    (x ++ y).toNat = x.toNat * 2 ^ n + y.toNat := by
  rw [BitVec.toNat_append, ← Nat.shiftLeft_add_eq_or_of_lt y.isLt, Nat.shiftLeft_eq]

/-- R70: the integer of a command word. -/
theorem commandWord_toNat (op : BitVec 2) (a b : Word) :
    (commandWord op a b).toNat = op.toNat * 2 ^ 512 + a.toNat * 2 ^ 256 + b.toNat := by
  rw [commandWord, toNat_append_eq_mul_add, toNat_append_eq_mul_add, Nat.add_mul, Nat.mul_assoc, ← Nat.pow_add]

/-! The rows of the decoder (R78). -/

theorem decode_commandWord_fadd (a b : Word) : decode (commandWord 0b00#2 a b) = .fadd a b := by
  simp [decode, opField_commandWord, aField_commandWord, bField_commandWord]

theorem decode_commandWord_fsub (a b : Word) : decode (commandWord 0b01#2 a b) = .fsub a b := by
  simp [decode, opField_commandWord, aField_commandWord, bField_commandWord]

theorem decode_commandWord_fmul (a b : Word) : decode (commandWord 0b10#2 a b) = .fmul a b := by
  simp [decode, opField_commandWord, aField_commandWord, bField_commandWord]

theorem decode_commandWord_finv (a b : Word) : decode (commandWord 0b11#2 a b) = .finv a := by
  simp [decode, opField_commandWord, aField_commandWord]

/-- R71: each value of the `op` field is the code of one operation. -/
theorem opcode_cases : ∀ op : BitVec 2, op = 0b00#2 ∨ op = 0b01#2 ∨ op = 0b10#2 ∨ op = 0b11#2 := by decide

/-! Encoding and decoding (R70, R78). -/

theorem decode_encode (i : Instr) : decode (encode i) = i := by
  cases i with
  | fadd a b => exact decode_commandWord_fadd a b
  | fsub a b => exact decode_commandWord_fsub a b
  | fmul a b => exact decode_commandWord_fmul a b
  | finv a => exact decode_commandWord_finv a 0

/-- A word of three given fields is the word of its command, but for the field that FINV ignores (R75). -/
theorem encode_decode_commandWord (op : BitVec 2) (a b : Word) :
    encode (decode (commandWord op a b)) = if op = 0b11#2 then commandWord 0b11#2 a 0 else commandWord op a b := by
  rcases opcode_cases op with rfl | rfl | rfl | rfl
  · rw [decode_commandWord_fadd]; rfl
  · rw [decode_commandWord_fsub]; rfl
  · rw [decode_commandWord_fmul]; rfl
  · rw [decode_commandWord_finv]; rfl

theorem encode_decode (c : CommandWord) :
    encode (decode c) = if opField c = 0b11#2 then commandWord 0b11#2 (aField c) 0 else c := by
  simpa only [commandWord_fields] using encode_decode_commandWord (opField c) (aField c) (bField c)

/-! Decoding numbers (R76, R77). -/

theorem decodeNumber_of_lt {n : Nat} (h : n < 2 ^ 514) : decodeNumber n = .ok (decode (BitVec.ofNat 514 n)) := by
  rw [decodeNumber, if_pos h]

theorem decodeNumber_of_ge {n : Nat} (h : 2 ^ 514 ≤ n) : decodeNumber n = .error (.notACommandWord n) := by
  rw [decodeNumber, if_neg (Nat.not_lt.2 h)]

/-- A command word's number decodes as the word does. -/
theorem decodeTableWord_toNat (c : CommandWord) : decodeTableWord 514 c.toNat = some (decode c) := by
  rw [decodeTableWord, Nat.mod_eq_of_lt c.isLt, decodeNumber_of_lt c.isLt, BitVec.ofNat_toNat, BitVec.setWidth_eq]
  rfl

/-- The number of a command, as R70 writes it, decodes to the command. -/
theorem decodeTableWord_of_layout (i : Instr) {n : Nat}
    (hn : n = (opcodeOf i).toNat * 2 ^ 512 + (operandA i).toNat * 2 ^ 256 + (operandB i).toNat) :
    decodeTableWord 514 n = some i := by
  rw [hn, ← commandWord_toNat, ← encode, decodeTableWord_toNat, decode_encode]

/-- Settles O1: the decoder reads back what the encoder wrote, and a word is made of the three fields it reads. -/
theorem decodeEncodeAgree : Obligations.DecodeEncodeAgree :=
  ⟨fun i => ⟨decode_encode i, decodeTableWord_of_layout i (commandWord_toNat _ _ _)⟩, encode_decode⟩

/-- Settles O2: the fields' weights in the word, and the decoder's row for each operation code. -/
theorem commandWordLayout : Obligations.CommandWordLayout := by
  intro op a b
  refine ⟨commandWord_toNat op a b, ?_, ?_, ?_, ?_⟩
  · rintro rfl; exact decode_commandWord_fadd a b
  · rintro rfl; exact decode_commandWord_fsub a b
  · rintro rfl; exact decode_commandWord_fmul a b
  · rintro rfl; exact decode_commandWord_finv a b

/-- Settles O3: each vector is the integer that R70 gives its command. -/
theorem knownWordsDecode : Obligations.KnownWordsDecode :=
  ⟨decodeTableWord_of_layout (.fadd 1 2) (by decide +kernel), decodeTableWord_of_layout (.fsub 3 5) (by decide +kernel),
    decodeTableWord_of_layout (.fmul 3 5) (by decide +kernel), decodeTableWord_of_layout (.finv 2) (by decide +kernel)⟩

/-- Settles O4: the decoder of words is total, and the decoder of numbers asks only for the width. -/
theorem decodingIsTotal : Obligations.DecodingIsTotal :=
  ⟨fun _ hn => ⟨_, decodeNumber_of_lt hn⟩, fun _ hn => decodeNumber_of_ge hn⟩

end Sys2Proof

namespace Sys2Proof.Machine

/-- Settles O5: both words decode to FINV of `a`, and the outcome is that of the decoded command. -/
theorem finvIgnoresSecondOperand : Obligations.FinvIgnoresSecondOperand := by
  intro a b b'
  have hdecode : decode (commandWord 0b11#2 a b) = decode (commandWord 0b11#2 a b') :=
    (decode_commandWord_finv a b).trans (decode_commandWord_finv a b').symm
  exact ⟨hdecode, congrArg outcomeOf hdecode, rfl⟩

/-- R72: the integer of a response word. -/
theorem responseWord_toNat (q : Response) :
    (responseWord q).toNat = (if q.err then 2 ^ 256 else 0) + q.data.toNat := by
  rw [responseWord, toNat_append_eq_mul_add]
  cases q.err <;> simp

/-- Settles O6: the word is `err` above the data. -/
theorem responseWordLayout : Obligations.ResponseWordLayout := by
  intro q
  refine ⟨?_, BitVec.extractLsb'_append_eq_right, responseWord_toNat q⟩
  rw [responseWord, BitVec.getLsbD_append, if_neg (Nat.lt_irrefl 256)]
  cases q.err <;> rfl

end Sys2Proof.Machine
end

section
/-! PROOFS. A command word is read back from its spelling `op:a:b` (30_encoding.md R73). -/

namespace Sys2Proof.Machine

/-! Digits and what reads them. -/

theorem hexValue_hexDigit : ∀ n < 16, hexValue (hexDigit n) = some n := by decide

theorem hexDigit_ne_colon : ∀ n < 16, hexDigit n ≠ ':' := by decide

theorem readBit_bitDigit (b : Bool) : readBit (bitDigit b) = some b := by cases b <;> rfl

/-- The `op` field from its two binary digits. -/
theorem ofBool_append_getLsbD : ∀ op : BitVec 2, BitVec.ofBool (op.getLsbD 1) ++ BitVec.ofBool (op.getLsbD 0) = op := by
  decide

/-! Fields of hex digits. -/

@[simp] theorem hexDigits_length (k n : Nat) : (hexDigits k n).length = k := by
  induction k with
  | zero => rfl
  | succ k ih => rw [hexDigits, List.length_cons, ih]

theorem ne_colon_of_mem_hexDigits {k n : Nat} {c : Char} (h : c ∈ hexDigits k n) : c ≠ ':' := by
  induction k with
  | zero => cases h
  | succ k ih =>
    rcases List.mem_cons.1 h with rfl | h
    · exact hexDigit_ne_colon _ (Nat.mod_lt _ (by decide))
    · exact ih h

/-- Reading the lowest `k` hex digits of `n` on top of `m`. -/
theorem readDigits_hexDigits (k m n : Nat) : readDigits m (hexDigits k n) = some (16 ^ k * m + n % 16 ^ k) := by
  induction k generalizing m with
  | zero => simp [hexDigits, readDigits, Nat.mod_one]
  | succ k ih =>
    have hdigit := hexValue_hexDigit (n / 16 ^ k % 16) (Nat.mod_lt _ (by decide))
    simp only [hexDigits, readDigits, hdigit, ih, Nat.mod_pow_succ, Option.some.injEq]
    ring

theorem readWord_spellWord (v : Word) : readWord (spellWord v) = some v := by
  have hlen : (spellWord v).length = 64 := hexDigits_length _ _
  have hne : spellWord v ≠ [] := List.ne_nil_of_length_eq_add_one hlen
  have hread : readDigits 0 (spellWord v) = some v.toNat := by
    rw [spellWord, readDigits_hexDigits, Nat.mod_eq_of_lt (by simpa using v.isLt), Nat.mul_zero, Nat.zero_add]
  simp [readWord, hlen, hne, hread]

/-! A field ends at the colon, since no digit is one. -/

theorem mem_spellWord_bne_colon {v : Word} : ∀ c ∈ spellWord v, (c != ':') = true :=
  fun _ hc => bne_iff_ne.2 (ne_colon_of_mem_hexDigits hc)

theorem takeWhile_spellWord (v : Word) (rest : List Char) :
    (spellWord v ++ ':' :: rest).takeWhile (· != ':') = spellWord v := by
  simp [List.takeWhile_append_of_pos mem_spellWord_bne_colon]

theorem dropWhile_spellWord (v : Word) (rest : List Char) :
    (spellWord v ++ ':' :: rest).dropWhile (· != ':') = ':' :: rest := by
  simp [List.dropWhile_append_of_pos mem_spellWord_bne_colon]

/-- Settles O7: each of the three fields is read back, and the word is made of them. -/
theorem spellingReadsBack : Obligations.SpellingReadsBack := by
  intro c
  simp only [spellCommand, List.cons_append, readCommand, takeWhile_spellWord, dropWhile_spellWord, List.drop_one,
    List.tail_cons, readBit_bitDigit, readWord_spellWord, ofBool_append_getLsbD, commandWord_fields]

end Sys2Proof.Machine
end

section
/-! PROOFS. Operands as residues, and what the pseudo-instructions compute (30_encoding.md R74, R80). -/

namespace Sys2Proof.Machine

/-! A command's outcome reads its operands as residues (R74, R92, R97, R112). -/

theorem outcomeOf_fadd_congr {a a' b b' : Word} (ha : canon a = canon a') (hb : canon b = canon b') :
    outcomeOf (.fadd a b) = outcomeOf (.fadd a' b') := by
  rw [outcomeOf_fadd, outcomeOf_fadd, ha, hb]

theorem outcomeOf_fsub_congr {a a' b b' : Word} (ha : canon a = canon a') (hb : canon b = canon b') :
    outcomeOf (.fsub a b) = outcomeOf (.fsub a' b') := by
  rw [outcomeOf_fsub, outcomeOf_fsub, ha, hb]

theorem outcomeOf_fmul_congr {a a' b b' : Word} (ha : canon a = canon a') (hb : canon b = canon b') :
    outcomeOf (.fmul a b) = outcomeOf (.fmul a' b') := by
  rw [outcomeOf_fmul, outcomeOf_fmul, ha, hb]

theorem outcomeOf_finv_congr {a a' : Word} (ha : canon a = canon a') : outcomeOf (.finv a) = outcomeOf (.finv a') := by
  simp only [outcomeOf, finvOutcome, ha]

/-- A completion is its outcome's, so commands of one outcome make the same edge. -/
theorem exec_congr {i j : Instr} (h : outcomeOf i = outcomeOf j) (s : State) : exec i s = exec j s := by
  rw [exec_eq, exec_eq, h]

/-- R92: the residue of a non-canonical word is small, since P lies just below `2^256`. -/
theorem canon_le_of_ge {v : Word} (h : P ≤ v.toNat) : canon v ≤ 2 ^ 32 + 976 := by
  have hv := v.isLt
  rw [canon_of_ge h, P_eq]
  omega

/-- Settles O16: a word of P or more is itself less P, and outcomes are functions of the residues. -/
theorem operandsCountAsResidues : Obligations.OperandsCountAsResidues :=
  ⟨fun _ hv => ⟨canon_of_ge hv, canon_le_of_ge hv⟩, fun _ _ _ _ ha hb s =>
    ⟨exec_congr (outcomeOf_fadd_congr ha hb) s, exec_congr (outcomeOf_fsub_congr ha hb) s,
      exec_congr (outcomeOf_fmul_congr ha hb) s, exec_congr (outcomeOf_finv_congr ha) s⟩⟩

/-! The words of the answers, as numbers of the operands (R90, R95, R110). -/

@[simp] theorem canon_zero : canon 0 = 0 := rfl

theorem residueWord_natCast_toNat (n : Nat) : (residueWord n).toNat = n % P := by
  rw [residueWord_toNat, ← Int.natCast_mod, Int.toNat_natCast]

theorem answers_fadd (a b : Word) :
    ∃ r, answers (.fadd a b) r ∧ r.toNat = (a.toNat + b.toNat) % P := by
  refine ⟨_, answers_iff.2 (outcomeOf_fadd a b), ?_⟩
  rw [← Nat.cast_add, residueWord_natCast_toNat, canon, canon, ← Nat.add_mod]

theorem answers_fsub (a b : Word) :
    ∃ r, answers (.fsub a b) r ∧ (r.toNat : Int) = ((a.toNat : Int) - b.toNat) % P := by
  refine ⟨_, answers_iff.2 (outcomeOf_fsub a b), ?_⟩
  rw [residueWord_toInt, canon_toInt, canon_toInt, ← Int.sub_emod]

theorem answers_fmul (a b : Word) :
    ∃ r, answers (.fmul a b) r ∧ r.toNat = a.toNat * b.toNat % P := by
  refine ⟨_, answers_iff.2 (outcomeOf_fmul a b), ?_⟩
  rw [← Nat.cast_mul, residueWord_natCast_toNat, canon, canon, ← Nat.mul_mod]

/-- FADD of 0 gives the canonical word of the same residue (R80, FRED). -/
theorem answers_fadd_zero (a : Word) : answers (.fadd a 0) (BitVec.ofNat 256 (canon a)) := by
  refine answers_iff.2 ?_
  rw [outcomeOf_fadd, ExecOutcome.ok.injEq]
  apply BitVec.eq_of_toNat_eq
  rw [← Nat.cast_add, residueWord_natCast_toNat, canon_zero, Nat.add_zero, Nat.mod_eq_of_lt (canon_lt a),
    toNat_ofNat_of_lt_P (canon_lt a)]

/-- FINV of a non-zero residue answers its inverse modulo P, by Fermat's little theorem (R130, R132). -/
theorem answers_finv_inverse {b : Word} (hb : canon b ≠ 0) :
    ∃ u, answers (.finv b) u ∧ u.toNat * b.toNat % P = 1 := by
  refine ⟨_, answers_iff.2 (outcomeOf_finv_ok hb), ?_⟩
  have : Fact P.Prime := ⟨P_prime⟩
  have hne : (b.toNat : ZMod P) ≠ 0 := fun h =>
    hb (Nat.mod_eq_zero_of_dvd ((ZMod.natCast_eq_zero_iff _ _).1 h))
  have hexp : P - 2 + 1 = P - 1 := by have := one_lt_P; omega
  have hmod : canon b ^ (P - 2) % P * b.toNat % P = 1 % P := by
    rw [← ZMod.natCast_eq_natCast_iff']
    push_cast [ZMod.natCast_mod, canon]
    rw [← pow_succ, hexp, ZMod.pow_card_sub_one_eq_one hne]
  rw [toNat_ofNat_of_lt_P (Nat.mod_lt _ P_pos), hmod, Nat.mod_eq_of_lt one_lt_P]

/-- The quotient of R80's FDIV: the product of its two commands, times the divisor, is the dividend modulo P. -/
theorem answers_quotient (a : Word) {b : Word} (hb : canon b ≠ 0) :
    ∃ u r, answers (.finv b) u ∧ answers (.fmul a u) r ∧ r.toNat * b.toNat % P = a.toNat % P := by
  obtain ⟨u, hu, hinverse⟩ := answers_finv_inverse hb
  obtain ⟨r, hr, hproduct⟩ := answers_fmul a u
  refine ⟨u, r, hu, hr, ?_⟩
  rw [hproduct, Nat.mod_mul_mod, Nat.mul_assoc, Nat.mul_mod, hinverse, Nat.mul_one, Nat.mod_mod]

/-- The difference is 0 exactly for congruent operands (R80, FEQ). -/
theorem answers_fsub_eq_zero_iff (a b : Word) :
    ∃ r, answers (.fsub a b) r ∧ (r = 0 ↔ a.toNat % P = b.toNat % P) := by
  obtain ⟨r, hr, hdiff⟩ := answers_fsub a b
  refine ⟨r, hr, ?_⟩
  calc r = 0 ↔ (r.toNat : Int) = 0 := by rw [Int.natCast_eq_zero, ← BitVec.toNat_inj]; rfl
    _ ↔ ((a.toNat : Int)) % P = (b.toNat : Int) % P := by rw [hdiff, Int.emod_eq_emod_iff_emod_sub_eq_zero]
    _ ↔ a.toNat % P = b.toNat % P := by exact_mod_cast Iff.rfl

/-- Settles O23: each expansion is R80's row, and its commands' answers are the sums, differences, products and inverses above. -/
theorem pseudoInstructionsCompute : Obligations.PseudoInstructionsCompute := by
  intro n t l x y k a b hk
  obtain ⟨square, hsquare, hsquareNat⟩ := answers_fmul a a
  obtain ⟨double, hdouble, hdoubleNat⟩ := answers_fadd a a
  obtain ⟨neg, hneg, hnegInt⟩ := answers_fsub 0 a
  obtain ⟨multiple, hmultiple, hmultipleNat⟩ := answers_fmul a (BitVec.ofNat 256 k)
  refine ⟨⟨rfl, square, hsquare, ?_⟩, ⟨rfl, double, hdouble, ?_⟩, ⟨rfl, neg, hneg, ?_⟩, ⟨rfl, answers_fadd_zero a⟩,
    ⟨rfl, multiple, hmultiple, ?_⟩, ⟨rfl, fun hb => ?_, fun hb => answers_quotient a hb⟩,
    ⟨rfl, answers_fsub_eq_zero_iff a b⟩⟩
  · rw [hsquareNat, pow_two]
  · rw [hdoubleNat, two_mul]
  · simpa using hnegInt
  · rw [hmultipleNat, BitVec.toNat_ofNat, Nat.mod_eq_of_lt hk, Nat.mul_comm]
  · exact answersZeroInverse_iff.2 (outcomeOf_finv_zero hb)

end Sys2Proof.Machine
end

section
/-! PROOFS. The host's temporaries at an edge and at a step (30_encoding.md R79; 70_reset_and_hazards.md R175). -/

namespace Sys2Proof.Machine

@[simp] theorem complete_temps (o : ExecOutcome) (s : State) : (complete o s).temps = s.temps := by cases o <;> rfl

/-- The state machine leaves the host's storage alone (R79: "host storage, not FAU state"). -/
theorem clock_temps {d : Drive} {s t : State} (h : clock d s = .next t) : t.temps = s.temps := by
  rcases clock_cases h with ⟨-, rfl⟩ | ⟨-, -, -, -, rfl⟩ | ⟨-, -, -, rfl⟩ | ⟨-, -, -, rfl⟩ | ⟨-, -, -, rfl⟩ |
    ⟨-, -, -, rfl⟩ | ⟨-, -, -, rfl⟩ | ⟨-, -, -, rfl⟩ <;> simp

/-- What an edge does to the temporaries is what its cycle defines. -/
theorem edge_temps {d : Drive} {s t : State} (h : edge d s = .next t) : t.temps = (capture d s).temps := by
  obtain ⟨-, -, hclock⟩ := edge_next h
  exact clock_temps hclock

theorem lookupTemp_capture_of_ne {d : Drive} {m : Nat} (hm : d.define ≠ some m) (s : State) :
    lookupTemp m (capture d s).temps = lookupTemp m s.temps := by
  cases hn : d.define with
  | none => rw [capture_of_define_none hn]
  | some n =>
    rw [capture_temps_of_define hn]
    exact lookupTemp_insertTemp_other (fun hmn => hm (by rw [hn, hmn])) _ _

/-- Settles O37: `readFault` lets only a good response define a new temporary, and `capture` stores that one alone. -/
theorem temporariesChangeOnlyByDefinition : Obligations.TemporariesChangeOnlyByDefinition := by
  intro d s t h
  obtain ⟨-, hf, -⟩ := edge_next h
  obtain ⟨-, -, hdefine⟩ := readFault_eq_none.1 hf
  rw [edge_temps h]
  refine ⟨fun n hn => ?_, fun n hn => lookupTemp_capture_of_ne hn s⟩
  obtain ⟨-, hgood, hnew⟩ := hdefine n hn
  exact ⟨hgood, hnew, by rw [capture_temps_of_define hn, lookupTemp_insertTemp_same]⟩

/-- Settles O42: a step is an edge from a state with the same temporaries, and `capture` keeps them ordered. -/
theorem stepKeepsTemporariesOrdered : Obligations.StepKeepsTemporariesOrdered := by
  intro s t hs h
  obtain ⟨d, u, hedge, hu⟩ := step_edge h
  have htemps : tempsCanonical u.temps := by rw [hu]; exact hs
  rw [edge_temps hedge]
  exact tempsCanonical_capture d htemps

end Sys2Proof.Machine
end

section
/-! PROOFS. Where the sequencer's lines go and where they stop (30_encoding.md R79, R81). -/

namespace Sys2Proof.Machine

/-! The sources of a line (R79). -/

/-- The fault of reading a source, if it has no value. -/
def sourceFault (ts : List (Nat × Word)) (x : Source) : Option Fault :=
  match sourceValue ts x with
  | .ok _ => none
  | .error f => some f

theorem sourceFault_of_ok {ts : List (Nat × Word)} {x : Source} {v : Word} (h : sourceValue ts x = .ok v) :
    sourceFault ts x = none := by
  simp [sourceFault, h]

theorem sourceFault_of_error {ts : List (Nat × Word)} {x : Source} {f : Fault} (h : sourceValue ts x = .error f) :
    sourceFault ts x = some f := by
  simp [sourceFault, h]

theorem sourceFault_of_readable {ts : List (Nat × Word)} {x : Source} (h : readable ts x) : sourceFault ts x = none := by
  obtain ⟨v, hv⟩ := sourceValue_ok_iff.2 h
  exact sourceFault_of_ok hv

theorem sourceFault_of_undefined {ts : List (Nat × Word)} {n : Nat} (h : lookupTemp n ts = none) :
    sourceFault ts (.temp n) = some (.temporaryUndefined n) :=
  sourceFault_of_error (by rw [sourceValue, h])

theorem sourceFault_of_wide (ts : List (Nat × Word)) {v : Nat} (h : 2 ^ 256 ≤ v) :
    sourceFault ts (.lit v) = some (.literalTooWide v) :=
  sourceFault_of_error (by rw [sourceValue, if_neg (Nat.not_lt.2 h)])

theorem assemble2_of_sourceFault {ts : List (Nat × Word)} {x y : Source} {f : Fault} (mk : Word → Word → Instr)
    (h : [x, y].findSome? (sourceFault ts) = some f) : assemble2 mk ts x y = .error f := by
  cases hx : sourceValue ts x with
  | error g => simpa [assemble2, sourceFault, hx] using h
  | ok a =>
    cases hy : sourceValue ts y with
    | error g => simpa [assemble2, sourceFault, hx, hy] using h
    | ok b => simp [sourceFault, hx, hy] at h

theorem assemble1_of_sourceFault {ts : List (Nat × Word)} {x : Source} {f : Fault} (mk : Word → Instr)
    (h : [x].findSome? (sourceFault ts) = some f) : assemble1 mk ts x = .error f := by
  cases hx : sourceValue ts x with
  | error g => simpa [assemble1, sourceFault, hx] using h
  | ok a => simp [sourceFault, hx] at h

/-- BRZ and BRNZ read their temporary as a source. -/
theorem undefined_of_sourceFault {ts : List (Nat × Word)} {n : Nat} {f : Fault}
    (h : [Source.temp n].findSome? (sourceFault ts) = some f) : lookupTemp n ts = none ∧ f = .temporaryUndefined n := by
  cases hv : lookupTemp n ts with
  | none => simpa [sourceFault_of_undefined hv, eq_comm] using h
  | some v => simp [sourceFault, sourceValue, hv] at h

/-- A line stops at its first source without a value. -/
theorem runLine_of_sourceFault {s : State} {l : HostLine} {f : Fault}
    (h : (lineSources l).findSome? (sourceFault s.temps) = some f) : runLine s l = .stop f := by
  cases l with
  | fadd n x y => rw [runLine, assemble2_of_sourceFault _ h]; rfl
  | fsub n x y => rw [runLine, assemble2_of_sourceFault _ h]; rfl
  | fmul n x y => rw [runLine, assemble2_of_sourceFault _ h]; rfl
  | finv n x => rw [runLine, assemble1_of_sourceFault _ h]; rfl
  | brz n m => obtain ⟨hv, rfl⟩ := undefined_of_sourceFault h; rw [runLine, hv]
  | brnz n m => obtain ⟨hv, rfl⟩ := undefined_of_sourceFault h; rw [runLine, hv]
  | brerr m => cases h
  | halt => cases h
  | label m => cases h

/-! The jumps (R81). -/

theorem runLine_brz {s : State} {n : Nat} {v : Word} (l : List Char) (hv : lookupTemp n s.temps = some v) :
    runLine s (.brz n l) = if v = 0 then jumpTo l s else nextLine s := by
  rw [runLine, hv]

theorem runLine_brnz {s : State} {n : Nat} {v : Word} (l : List Char) (hv : lookupTemp n s.temps = some v) :
    runLine s (.brnz n l) = if v = 0 then nextLine s else jumpTo l s := by
  rw [runLine, hv]

theorem lookupTemp_of_readable {ts : List (Nat × Word)} {n : Nat} (h : readable ts (.temp n)) :
    ∃ v, lookupTemp n ts = some v :=
  Option.ne_none_iff_exists'.1 (h.2 n rfl)

/-- A line whose sources have values goes to the label it jumps to in this state. -/
theorem runLine_of_jumpLabel {s : State} {l : HostLine} {m : List Char} (hsources : ∀ x ∈ lineSources l, readable s.temps x)
    (h : jumpLabel s l = some m) : runLine s l = jumpTo m s := by
  cases l with
  | brerr k =>
    obtain ⟨herr, rfl⟩ : s.lastErr = true ∧ k = m := by simpa [jumpLabel] using h
    rw [runLine, if_pos herr]
  | brz n k =>
    obtain ⟨v, hv⟩ := lookupTemp_of_readable (hsources _ (List.mem_singleton_self _))
    obtain ⟨hzero, rfl⟩ : v = 0 ∧ k = m := by simpa [jumpLabel, hv] using h
    rw [runLine_brz k hv, if_pos hzero]
  | brnz n k =>
    obtain ⟨v, hv⟩ := lookupTemp_of_readable (hsources _ (List.mem_singleton_self _))
    obtain ⟨hzero, rfl⟩ : v ≠ 0 ∧ k = m := by simpa [jumpLabel, hv] using h
    rw [runLine_brnz k hv, if_neg hzero]
  | fadd n x y => cases h
  | fsub n x y => cases h
  | fmul n x y => cases h
  | finv n x => cases h
  | halt => cases h
  | label k => cases h

section
variable {s t : State} {l : HostLine} (hscript : s.script = []) (ha : s.awaiting = none)
  (hl : s.program[s.line]? = some l)
include hscript ha hl

/-- No edge moves the sequencer, so a step leaves it where its line drives it to. -/
theorem step_line_of_drive {d : Drive} {u : State} (hrun : runLine s l = .drive d u) (h : step s = .next t) :
    t.line = u.line := by
  rw [step_of_plan_drive hscript ((plan_line ha hl).trans hrun)] at h
  exact edge_line h

theorem step_of_line_stops {f : Fault} (hrun : runLine s l = .stop f) : step s = .fault f :=
  step_of_plan_stop hscript ((plan_line ha hl).trans hrun)

/-- A taken jump that answers has gone to the first line with its label. -/
theorem firstLabelled_of_jumpTo {m : List Char} (hrun : runLine s l = jumpTo m s) (h : step s = .next t) :
    firstLabelled m s.program t.line := by
  rcases jumpTo_cases m s with ⟨k, hk, hjump⟩ | ⟨-, hjump⟩
  · rw [step_line_of_drive hscript ha hl (hrun.trans hjump) h]
    exact hk
  · rw [step_of_line_stops hscript ha hl (hrun.trans hjump)] at h
    cases h

theorem step_line_of_nextLine (hrun : runLine s l = nextLine s) (h : step s = .next t) : t.line = s.line + 1 :=
  step_line_of_drive hscript ha hl hrun h

end

/-- Settles O47: each control line is a jump, a passage to the next line, or, for HALT, a stay. -/
theorem controlLinesMoveTheSequencer : Obligations.ControlLinesMoveTheSequencer := by
  intro s t hscript ha h
  refine ⟨fun l hl => ⟨fun herr => ?_, fun herr => ?_⟩, fun n l v hl hv => ⟨fun hzero => ?_, fun hzero => ?_⟩,
    fun n l v hl hv => ⟨fun hzero => ?_, fun hzero => ?_⟩, fun hl => ?_, fun m hl => ?_⟩
  · exact firstLabelled_of_jumpTo hscript ha hl (by rw [runLine, if_pos herr]) h
  · exact step_line_of_nextLine hscript ha hl (by rw [runLine, herr, if_neg Bool.false_ne_true]) h
  · exact firstLabelled_of_jumpTo hscript ha hl (by rw [runLine_brz l hv, if_pos hzero]) h
  · exact step_line_of_nextLine hscript ha hl (by rw [runLine_brz l hv, if_neg hzero]) h
  · exact firstLabelled_of_jumpTo hscript ha hl (by rw [runLine_brnz l hv, if_neg hzero]) h
  · exact step_line_of_nextLine hscript ha hl (by rw [runLine_brnz l hv, if_pos hzero]) h
  · exact step_line_of_drive hscript ha hl rfl h
  · exact step_line_of_nextLine hscript ha hl rfl h

/-- The sequencer's cycle that takes a good response to a temporary defined before is the fault of R79. -/
theorem edge_take_defined_twice {s : State} {n : Nat} (hp : s.phase = .resp) (hgood : s.err = false)
    (hdefined : lookupTemp n s.temps ≠ none) :
    edge (takeDrive n s) { s with line := s.line + 1, awaiting := none } = .fault (.temporaryDefinedTwice n) := by
  refine edge_of_readFault (by simp [hp]) ?_
  simp [readFault, takeDrive, Drive.ready, Drive.idle, rspValid, hp, hgood, Option.isSome_iff_ne_none, hdefined]

/-- Settles O50: the first source without a value, a jump without a line to go to, and a temporary defined before. -/
theorem sequencerStopsByName : Obligations.SequencerStopsByName := by
  refine ⟨fun s l x xs ys hscript ha hl hsplit hxs => ?_, fun s l m hscript ha hl hsources hj hmissing => ?_,
    fun s n hscript ha hp hgood hdefined => ?_⟩
  · have stops : ∀ {f}, sourceFault s.temps x = some f → step s = .fault f := fun hx =>
      step_of_line_stops hscript ha hl <| runLine_of_sourceFault <| by
        rw [hsplit, List.findSome?_append, List.findSome?_eq_none_iff.2 fun y hy => sourceFault_of_readable (hxs y hy),
          Option.none_or, List.findSome?_cons, hx]
    refine ⟨?_, ?_⟩
    · rintro n rfl hundefined
      exact stops (sourceFault_of_undefined hundefined)
    · rintro v rfl hwide
      exact stops (sourceFault_of_wide _ hwide)
  · rcases jumpTo_cases m s with ⟨k, hk, -⟩ | ⟨-, hjump⟩
    · exact absurd (List.mem_of_getElem? hk.1) hmissing
    · exact step_of_line_stops hscript ha hl ((runLine_of_jumpLabel hsources hj).trans hjump)
  · rw [step_of_plan_drive hscript (plan_awaiting_resp ha hp), edge_take_defined_twice hp hgood hdefined]

end Sys2Proof.Machine
end

section
/-! PROOFS. The sequencer comes to the response of its line (30_encoding.md R79; 70_reset_and_hazards.md R176, R178). -/

namespace Sys2Proof.Machine

/-- While it awaits a response that is not there, the sequencer only holds `rsp_ready = 1`. -/
theorem step_awaiting_busy {s : State} {n : Nat} (hscript : s.script = []) (ha : s.awaiting = some n) (hp : s.phase = .busy) :
    step s = edge Drive.ready s :=
  step_of_plan_drive hscript (plan_awaiting_of_ne_resp ha (by simp [hp]))

/-- The awaited command completes after the steps its latency has left, whatever is left of the count then (R178). -/
theorem runSteps_completes {s : State} {n : Nat} (k : Nat) (hscript : s.script = []) (ha : s.awaiting = some n)
    (hp : s.phase = .busy) : ∃ j, runSteps (max 1 s.latencyLeft + k) s =
      runSteps k (complete (commandOutcome (latched s)) { s with latencyLeft := j }) := by
  have hstep := step_awaiting_busy hscript ha hp
  induction hleft : s.latencyLeft using Nat.strong_induction_on generalizing s with
  | _ m ih =>
    by_cases helapsed : s.latencyLeft ≤ 1
    · rw [edge_busy_completes rfl rfl hp helapsed] at hstep
      refine ⟨s.latencyLeft, ?_⟩
      rw [max_eq_left (hleft ▸ helapsed), Nat.add_comm, runSteps_succ_of_next k hstep]
    · rw [edge_busy_of_waiting rfl rfl hp (Nat.lt_of_not_le helapsed)] at hstep
      obtain ⟨j, hj⟩ := ih (m - 1) (by omega) (s := waitEdge s) hscript ha hp (step_awaiting_busy hscript ha hp)
        (by rw [waitEdge_latencyLeft, hleft])
      refine ⟨j, ?_⟩
      rw [show max 1 m + k = max 1 (m - 1) + k + 1 by omega, runSteps_succ_of_next _ hstep, hj]
      rfl

/-- The sequencer consumes a response there to be taken, storing what its cycle defines. -/
theorem step_takes_response {s : State} {n : Nat} (hscript : s.script = []) (ha : s.awaiting = some n) (hp : s.phase = .resp)
    (hnew : s.err = false → lookupTemp n s.temps = none) :
    step s = .next (consume (capture (takeDrive n s) { s with line := s.line + 1, awaiting := none })) := by
  obtain ⟨t, ht⟩ := (edge_take_answers_iff n hp).2 hnew
  have hresp := edge_resp_eq (s := { s with line := s.line + 1, awaiting := none }) rfl hp ht
  rw [step_of_plan_drive hscript (plan_awaiting_resp ha hp), ht, hresp]
  rfl

/-- The data of a good response defines the temporary (R79). -/
theorem step_takes_good {s : State} {n : Nat} (hscript : s.script = []) (ha : s.awaiting = some n) (hp : s.phase = .resp)
    (hgood : s.err = false) (hnew : lookupTemp n s.temps = none) :
    step s = .next (consume { s with line := s.line + 1, awaiting := none, temps := insertTemp n s.res s.temps }) := by
  rw [step_takes_response hscript ha hp fun _ => hnew]
  simp [capture, takeDrive, hgood]

/-- An errored response defines nothing (R176). -/
theorem step_takes_errored {s : State} {n : Nat} (hscript : s.script = []) (ha : s.awaiting = some n) (hp : s.phase = .resp)
    (herr : s.err = true) : step s = .next (consume { s with line := s.line + 1, awaiting := none }) := by
  rw [step_takes_response hscript ha hp fun hgood => by simp [herr] at hgood]
  simp [capture, takeDrive, herr]

/-- Settles O46: the steps of the latency complete the command, and one more takes its response, good or errored. -/
theorem hostLineRunsToItsResponse : Obligations.HostLineRunsToItsResponse := by
  intro s n hscript ha hp hnew
  obtain ⟨j, hrun⟩ := runSteps_completes 1 hscript ha hp
  cases hout : commandOutcome (latched s) with
  | ok r =>
    have htake := step_takes_good (s := completeOk r { s with latencyLeft := j }) hscript ha rfl rfl hnew
    rw [hout, complete_ok, runSteps_succ_of_next 0 htake] at hrun
    refine ⟨_, hrun, rfl, rfl, rfl, fun r' hr => ?_, fun hzero => ?_, fun m hm => lookupTemp_insertTemp_other hm _ _⟩
    · cases hr
      exact ⟨lookupTemp_insertTemp_same .., rfl⟩
    · cases hzero
  | zeroInverse =>
    have htake := step_takes_errored (s := raiseZeroInverse { s with latencyLeft := j }) hscript ha rfl rfl
    rw [hout, complete_zeroInverse, runSteps_succ_of_next 0 htake] at hrun
    exact ⟨_, hrun, rfl, rfl, rfl, fun r hr => (by cases hr), fun _ => ⟨rfl, rfl⟩, fun m hm => rfl⟩

end Sys2Proof.Machine
end

section
/-! PROOFS. FADD and FSUB (40_add_sub.md R90 to R98): their results with all they leave unchanged, and their laws, read in `ZMod P`. -/

namespace Sys2Proof.Machine

/-! The results at the completion edge. -/

/-- A completion with `Ok(r)` writes STATE, RES and ERR and nothing else (R31). -/
theorem exec_of_outcome_ok {i : Instr} {r : Word} (h : outcomeOf i = .ok r) (s : State) :
    exec i s = .next { s with phase := .resp, res := r, err := false } := by
  rw [exec_eq, h]; rfl

/-- Settles O9: the sum of the residues is a natural number, and its residue word is what the completion writes. -/
theorem faddResult : Obligations.FaddResult := by
  intro a b s
  refine ⟨decode_commandWord_fadd a b, _, ?_, exec_of_outcome_ok (outcomeOf_fadd a b) s⟩
  rw [← Nat.cast_add, residueWord_natCast_toNat]

/-- R95: a difference of residues that is not negative is below P, so it is its own residue. -/
theorem residueWord_sub_of_le {a b : Word} (h : canon b ≤ canon a) :
    (residueWord (canon a - canon b)).toNat = canon a - canon b := by
  have hlt := canon_lt a
  rw [← Nat.cast_sub h, residueWord_natCast_toNat, Nat.mod_eq_of_lt (by omega)]

/-- R95: a negative difference of residues plus P lies in Fp, so it is the residue. -/
theorem residueWord_sub_of_lt {a b : Word} (h : canon a < canon b) :
    (residueWord (canon a - canon b)).toNat + canon b = canon a + P := by
  have hb := canon_lt b
  have hsum : ((canon a : Int) - canon b) % P = canon a - canon b + P := by
    rw [← Int.add_emod_right, Int.emod_eq_of_lt (by omega) (by omega)]
  have hword := residueWord_toInt (canon a - canon b)
  omega

/-- Settles O10: the residue word of the difference, below and above 0. -/
theorem fsubResult : Obligations.FsubResult := fun a b s =>
  ⟨decode_commandWord_fsub a b, _, residueWord_toInt _, residueWord_sub_of_le, residueWord_sub_of_lt,
    exec_of_outcome_ok (outcomeOf_fsub a b) s⟩

/-! An operand as an element of the field (R15): an answer is the one canonical word of its value there, so a law of a command is
an identity of `ZMod P`. -/

/-- The element of `ZMod P` a word stands for. -/
def fieldValue (v : Word) : ZMod P := v.toNat

theorem natCast_canon (v : Word) : (canon v : ZMod P) = fieldValue v := ZMod.natCast_mod _ _

theorem fieldValue_zero : fieldValue 0 = 0 := Nat.cast_zero

/-- The canonical word of a residue stands for what the word itself does. -/
@[simp] theorem fieldValue_ofNat_canon (v : Word) : fieldValue (BitVec.ofNat 256 (canon v)) = fieldValue v := by
  rw [fieldValue, toNat_ofNat_of_lt_P (canon_lt v), natCast_canon]

theorem fieldValue_residueWord (z : Int) : fieldValue (residueWord z) = z := by
  have h := congrArg (Int.cast (R := ZMod P)) (residueWord_toInt z)
  rwa [Int.cast_natCast, ZMod.intCast_mod] at h

/-- The residue word of an integer is the one canonical word with its value. -/
theorem residueWord_eq_iff {z : Int} {r : Word} : residueWord z = r ↔ r.toNat < P ∧ fieldValue r = z := by
  constructor
  · rintro rfl
    exact ⟨residueWord_lt z, fieldValue_residueWord z⟩
  · rintro ⟨hlt, hvalue⟩
    have hmod : z % P = (r.toNat : Int) % P := by
      rw [← ZMod.intCast_eq_intCast_iff', ← hvalue, Int.cast_natCast, fieldValue]
    apply BitVec.eq_of_toNat_eq
    rw [residueWord_congr hmod, residueWord_natCast_toNat, Nat.mod_eq_of_lt hlt]

theorem answers_fadd_iff {a b r : Word} :
    answers (.fadd a b) r ↔ r.toNat < P ∧ fieldValue r = fieldValue a + fieldValue b := by
  rw [answers_iff, outcomeOf_fadd, ExecOutcome.ok.injEq, residueWord_eq_iff]
  simp [natCast_canon]

theorem answers_fsub_iff {a b r : Word} :
    answers (.fsub a b) r ↔ r.toNat < P ∧ fieldValue r = fieldValue a - fieldValue b := by
  rw [answers_iff, outcomeOf_fsub, ExecOutcome.ok.injEq, residueWord_eq_iff]
  simp [natCast_canon]

/-- R93: the one inverse of `a` under FADD. -/
theorem answers_fadd_eq_zero_iff (a : Word) {x : Word} (hx : x.toNat < P) :
    answers (.fadd a x) 0 ↔ x.toNat = (P - canon a) % P := by
  have hneg : ((P - canon a : Nat) : ZMod P) = -fieldValue a := by
    rw [Nat.cast_sub (canon_lt a).le, natCast_canon, ZMod.natCast_self, zero_sub]
  calc answers (.fadd a x) 0
    _ ↔ fieldValue x = -fieldValue a := by
      rw [answers_fadd_iff, and_iff_right (show (0 : Word).toNat < P from P_pos), fieldValue_zero, eq_comm, add_comm, add_eq_zero_iff_eq_neg]
    _ ↔ x.toNat % P = (P - canon a) % P := by rw [← hneg, fieldValue, ZMod.natCast_eq_natCast_iff']
    _ ↔ x.toNat = (P - canon a) % P := by rw [Nat.mod_eq_of_lt hx]

/-- Settles O17: each law is the law of addition in `ZMod P` for the values of the answers. -/
theorem faddLaws : Obligations.FaddLaws := by
  intro a b c
  obtain ⟨ab, hab, -⟩ := answers_fadd a b
  obtain ⟨bc, hbc, -⟩ := answers_fadd b c
  obtain ⟨abc, habc, -⟩ := answers_fadd ab c
  obtain ⟨habLt, habValue⟩ := answers_fadd_iff.1 hab
  obtain ⟨-, hbcValue⟩ := answers_fadd_iff.1 hbc
  obtain ⟨habcLt, habcValue⟩ := answers_fadd_iff.1 habc
  refine ⟨ab, bc, abc, hab, habLt, ?commutative, hbc, habc, ?associative, answers_fadd_zero a, ?residuesOnly,
    fun x => answers_fadd_eq_zero_iff a⟩
  case commutative => exact answers_fadd_iff.2 ⟨habLt, by rw [habValue, add_comm]⟩
  case associative => exact answers_fadd_iff.2 ⟨habcLt, by rw [habcValue, habValue, hbcValue, add_assoc]⟩
  case residuesOnly => exact answers_fadd_iff.2 ⟨habLt, by simp [habValue]⟩

/-- Settles O18: each law is the law of subtraction in `ZMod P` for the values of the answers. -/
theorem fsubLaws : Obligations.FsubLaws := by
  intro a b
  obtain ⟨ab, hab, hzero⟩ := answers_fsub_eq_zero_iff a b
  obtain ⟨nb, hnb, -⟩ := answers_fsub 0 b
  obtain ⟨habLt, habValue⟩ := answers_fsub_iff.1 hab
  obtain ⟨-, hnbValue⟩ := answers_fsub_iff.1 hnb
  refine ⟨ab, nb, hab, habLt, ?itself, ?addingBack, hnb, ?negation, hzero⟩
  case itself => exact answers_fsub_iff.2 ⟨P_pos, by rw [fieldValue_zero, sub_self]⟩
  case addingBack =>
    exact answers_fadd_iff.2 ⟨by rw [toNat_ofNat_of_lt_P (canon_lt a)]; exact canon_lt a, by simp [habValue]⟩
  case negation =>
    exact answers_fadd_iff.2 ⟨habLt, by rw [habValue, hnbValue, fieldValue_zero, zero_sub, sub_eq_add_neg]⟩

end Sys2Proof.Machine
end

section
/-! PROOFS. FMUL (41_mul.md R110 to R114): its result with all it leaves unchanged, and its laws, read in `ZMod P`. -/

namespace Sys2Proof.Machine

/-- Settles O11: the product of the residues is a natural number, and its residue word is what the completion writes. -/
theorem fmulResult : Obligations.FmulResult := by
  intro a b s
  refine ⟨decode_commandWord_fmul a b, _, ?_, exec_of_outcome_ok (outcomeOf_fmul a b) s⟩
  rw [← Nat.cast_mul, residueWord_natCast_toNat]

/-! An answer of FMUL as the one canonical word of the product in `ZMod P`. -/

theorem answers_fmul_iff {a b r : Word} :
    answers (.fmul a b) r ↔ r.toNat < P ∧ fieldValue r = fieldValue a * fieldValue b := by
  rw [answers_iff, outcomeOf_fmul, ExecOutcome.ok.injEq, residueWord_eq_iff]
  simp [natCast_canon]

theorem fieldValue_one : fieldValue 1 = 1 := Nat.cast_one

theorem fieldValue_two : fieldValue 2 = 2 := Nat.cast_ofNat

theorem fieldValue_eq_zero_iff (v : Word) : fieldValue v = 0 ↔ v.toNat % P = 0 := by
  rw [fieldValue, ZMod.natCast_eq_zero_iff, Nat.dvd_iff_mod_eq_zero]

/-- The one canonical word that stands for 0. -/
theorem eq_zero_iff_fieldValue_eq_zero {r : Word} (h : r.toNat < P) : r = 0 ↔ fieldValue r = 0 := by
  rw [fieldValue_eq_zero_iff, Nat.mod_eq_of_lt h, ← BitVec.toNat_inj]; rfl

/-- R113: FMUL by 1 gives the canonical word of the same residue. -/
theorem answers_fmul_one (a : Word) : answers (.fmul a 1) (BitVec.ofNat 256 (canon a)) :=
  answers_fmul_iff.2 ⟨by rw [toNat_ofNat_of_lt_P (canon_lt a)]; exact canon_lt a, by rw [fieldValue_ofNat_canon, fieldValue_one, mul_one]⟩

theorem answers_fmul_zero (a : Word) : answers (.fmul a 0) 0 :=
  answers_fmul_iff.2 ⟨P_pos, by rw [fieldValue_zero, mul_zero]⟩

theorem answers_fmul_comm {a b r : Word} : answers (.fmul a b) r ↔ answers (.fmul b a) r := by
  rw [answers_fmul_iff, answers_fmul_iff, mul_comm]

/-- R113: there are no zero divisors, because P is prime. -/
theorem answer_fmul_eq_zero_iff {a b r : Word} (h : answers (.fmul a b) r) :
    r = 0 ↔ a.toNat % P = 0 ∨ b.toNat % P = 0 := by
  have : Fact P.Prime := ⟨P_prime⟩
  obtain ⟨hlt, hvalue⟩ := answers_fmul_iff.1 h
  rw [eq_zero_iff_fieldValue_eq_zero hlt, hvalue, mul_eq_zero, fieldValue_eq_zero_iff, fieldValue_eq_zero_iff]

/-- Settles O19: each law is the law of multiplication in the field `ZMod P` for the values of the answers. -/
theorem fmulLaws : Obligations.FmulLaws := by
  intro a b c
  obtain ⟨ab, hab, -⟩ := answers_fmul a b
  obtain ⟨bc, hbc, -⟩ := answers_fmul b c
  obtain ⟨abc, habc, -⟩ := answers_fmul ab c
  obtain ⟨ac, hac, -⟩ := answers_fmul a c
  obtain ⟨sum, hsum, -⟩ := answers_fadd b c
  obtain ⟨r, hr, -⟩ := answers_fmul a sum
  obtain ⟨habLt, habValue⟩ := answers_fmul_iff.1 hab
  obtain ⟨-, hbcValue⟩ := answers_fmul_iff.1 hbc
  obtain ⟨habcLt, habcValue⟩ := answers_fmul_iff.1 habc
  obtain ⟨-, hacValue⟩ := answers_fmul_iff.1 hac
  obtain ⟨-, hsumValue⟩ := answers_fadd_iff.1 hsum
  obtain ⟨hrLt, hrValue⟩ := answers_fmul_iff.1 hr
  refine ⟨ab, bc, abc, ac, sum, r, hab, habLt, answers_fmul_comm.1 hab, hbc, habc, ?associative, answers_fmul_one a,
    answers_fmul_zero a, hsum, hac, hr, ?distributive, answer_fmul_eq_zero_iff hab⟩
  case associative => exact answers_fmul_iff.2 ⟨habcLt, by rw [habcValue, habValue, hbcValue, mul_assoc]⟩
  case distributive =>
    exact answers_fadd_iff.2 ⟨hrLt, by rw [hrValue, hsumValue, habValue, hacValue, mul_add]⟩

/-- Settles O22: doubling is the product with 2 in `ZMod P`, and FMUL is commutative. -/
theorem smallConstantsByFmul : Obligations.SmallConstantsByFmul := by
  intro x y
  obtain ⟨double, hdouble, -⟩ := answers_fadd y y
  obtain ⟨hlt, hvalue⟩ := answers_fadd_iff.1 hdouble
  obtain ⟨square, hsquare, -⟩ := answers_fmul x x
  obtain ⟨triple, htriple, -⟩ := answers_fmul 3 square
  refine ⟨⟨double, hdouble, answers_fmul_iff.2 ⟨hlt, ?_⟩⟩, square, triple, hsquare, htriple, answers_fmul_comm.1 htriple⟩
  rw [hvalue, fieldValue_two, two_mul]

end Sys2Proof.Machine
end

section
/-! PROOFS. FINV (42_inverse.md R130 to R133; 60_exceptions.md R150, R157): what its completion writes, the response of a zero residue, and
its answer as the inverse in `ZMod P`. -/

namespace Sys2Proof.Machine

/-! An answer of FINV as the one canonical word whose product with the operand is 1 in `ZMod P`. -/

/-- A canonical word is settled by its value in the field. -/
theorem eq_of_fieldValue_eq {r x : Word} (hr : r.toNat < P) (hx : x.toNat < P) (h : fieldValue r = fieldValue x) : r = x := by
  have hword {y : Word} (hy : y.toNat < P) : residueWord y.toNat = y := residueWord_eq_iff.2 ⟨hy, (Int.cast_natCast _).symm⟩
  rw [← hword hr, ← hword hx]
  exact residueWord_congr ((ZMod.intCast_eq_intCast_iff' _ _ _).1 (by exact_mod_cast h))

/-- A command has one answer. -/
theorem answers_unique {i : Instr} {r x : Word} (hr : answers i r) (hx : answers i x) : r = x :=
  ExecOutcome.ok.inj ((answers_iff.1 hr).symm.trans (answers_iff.1 hx))

/-- R132's condition on a result, read in the field. -/
theorem canon_mul_mod_eq_one_iff (a r : Word) : canon a * r.toNat % P = 1 ↔ fieldValue a * fieldValue r = 1 := by
  have hcast : ((canon a * r.toNat : Nat) : ZMod P) = fieldValue a * fieldValue r := by
    rw [Nat.cast_mul, natCast_canon]; rfl
  calc canon a * r.toNat % P = 1
    _ ↔ canon a * r.toNat % P = 1 % P := by rw [Nat.mod_eq_of_lt one_lt_P]
    _ ↔ fieldValue a * fieldValue r = 1 := by rw [← ZMod.natCast_eq_natCast_iff', hcast, Nat.cast_one]

/-- A word with an inverse has a non-zero residue. -/
theorem canon_ne_zero_of_mul_eq_one {a r : Word} (h : fieldValue a * fieldValue r = 1) : canon a ≠ 0 := by
  have : Fact P.Prime := ⟨P_prime⟩
  exact mt (fieldValue_eq_zero_iff a).2 (left_ne_zero_of_mul_eq_one h)

/-- R132: FINV answers exactly the canonical word whose product with the operand is 1, for every operand: a zero residue has none. -/
theorem answers_finv_iff {a r : Word} :
    answers (.finv a) r ↔ r.toNat < P ∧ fieldValue a * fieldValue r = 1 := by
  by_cases ha : canon a = 0
  · refine iff_of_false (fun h => ?_) fun h => canon_ne_zero_of_mul_eq_one h.2 ha
    have hok := answers_iff.1 h
    rw [outcomeOf_finv_zero ha] at hok
    cases hok
  · obtain ⟨u, hu, hinverse⟩ := answers_finv_inverse ha
    have huLt := outcome_lt (answers_iff.1 hu)
    have hua : fieldValue a * fieldValue u = 1 := by
      rw [← canon_mul_mod_eq_one_iff, canon, Nat.mod_mul_mod, Nat.mul_comm, hinverse]
    constructor
    · intro h
      obtain rfl := answers_unique h hu
      exact ⟨huLt, hua⟩
    · rintro ⟨hrLt, hra⟩
      rwa [eq_of_fieldValue_eq hrLt huLt (left_inv_eq_right_inv (by rwa [mul_comm]) hua)]

theorem exists_answers_finv {a : Word} (ha : canon a ≠ 0) : ∃ r, answers (.finv a) r :=
  (answers_finv_inverse ha).imp fun _ h => h.1

/-- R133: an inverse is not 0. -/
theorem answer_finv_ne_zero {a r : Word} (h : answers (.finv a) r) : r ≠ 0 := by
  have : Fact P.Prime := ⟨P_prime⟩
  obtain ⟨hlt, hproduct⟩ := answers_finv_iff.1 h
  exact mt (eq_zero_iff_fieldValue_eq_zero hlt).1 (right_ne_zero_of_mul_eq_one hproduct)

/-! The results at the completion edge. -/

/-- R131: a completion with ZeroInverse writes STATE, RES and ERR, and advances the counter its free RES is drawn at. -/
theorem exec_of_outcome_zeroInverse {i : Instr} (h : outcomeOf i = .zeroInverse) (s : State) :
    exec i s = .next { s with phase := .resp, res := Config.freeWord s.draws, err := true, draws := s.draws + 1 } := by
  rw [exec_eq, h]; rfl

/-- Settles O12: the outcome is the power by repeated squaring, not 0 because it is an inverse, and ZeroInverse for a zero residue. -/
theorem finvResult : Obligations.FinvResult := by
  intro a b s
  refine ⟨decode_commandWord_finv a b, fun ha => ?_, fun ha => ⟨_, exec_of_outcome_zeroInverse (outcomeOf_finv_zero ha) s⟩⟩
  have hok := outcomeOf_finv_ok ha
  exact ⟨_, toNat_ofNat_of_lt_P (Nat.mod_lt _ P_pos), answer_finv_ne_zero (answers_iff.2 hok), exec_of_outcome_ok hok s⟩

/-! FINV of a zero residue (R131). -/

/-- The two words below `2^256` that P divides. -/
theorem canon_eq_zero_iff (a : Word) : canon a = 0 ↔ a = 0 ∨ a = BitVec.ofNat 256 P := by
  have hzero : a = 0 ↔ a.toNat = 0 := BitVec.toNat_inj.symm
  have hmodulus : a = BitVec.ofNat 256 P ↔ a.toNat = P := by
    rw [← BitVec.toNat_inj, BitVec.toNat_ofNat, Nat.mod_eq_of_lt P_lt_word]
  have hpos := P_pos
  rw [hzero, hmodulus]
  rcases Nat.lt_or_ge a.toNat P with hlt | hge
  · rw [canon_of_lt hlt]; omega
  · rw [canon_of_ge hge]; omega

/-- Settles O13: the completion stands in RESP with ERR 1, so the first edge with `rsp_ready` consumes its response (R51, R157). -/
theorem finvOfZeroCompletes : Obligations.FinvOfZeroCompletes := by
  intro a
  refine ⟨canon_eq_zero_iff a, fun ha s => ?_⟩
  have hzero := outcomeOf_finv_zero ha
  obtain ⟨u, hu, hidle, hdelivered⟩ := readyWithoutResponseHasNoEffect.2 (complete (outcomeOf (.finv a)) s) (complete_phase _ _)
  rw [complete_delivered] at hdelivered
  exact ⟨_, exec_eq _ s, by rw [complete_err, hzero]; rfl, rspValid_eq_true_iff.2 ⟨complete_phase _ _, rfl⟩, by simp [hzero],
    u, hu, hidle, hdelivered, by rw [responseOutcome_complete, hzero]⟩

/-! The laws. -/

/-- Settles O20: FINV's answer is the inverse in the field, and a word that is an inverse is FINV's one answer. -/
theorem finvIsTheInverse : Obligations.FinvIsTheInverse := by
  intro a ha
  obtain ⟨r, hr⟩ := exists_answers_finv ha
  obtain ⟨hlt, hproduct⟩ := answers_finv_iff.1 hr
  refine ⟨r, hr, hlt, (canon_mul_mod_eq_one_iff a r).2 hproduct, ?confirmed, fun x hx hax => ?unique⟩
  case confirmed => exact answers_fmul_iff.2 ⟨one_lt_P, by rw [fieldValue_one, hproduct]⟩
  case unique => exact answers_unique (answers_finv_iff.2 ⟨hx, (canon_mul_mod_eq_one_iff a x).1 hax⟩) hr

theorem ofNat_toNat_lt_P {n : Nat} (h : n < P) : (BitVec.ofNat 256 n).toNat < P :=
  (toNat_ofNat_of_lt_P h).trans_lt h

theorem P_sub_one_lt : P - 1 < P := Nat.sub_lt P_pos one_pos

theorem fieldValue_P_sub_one : fieldValue (BitVec.ofNat 256 (P - 1)) = -1 := by
  rw [fieldValue, toNat_ofNat_of_lt_P P_sub_one_lt, Nat.cast_sub one_lt_P.le, ZMod.natCast_self, Nat.cast_one, zero_sub]

theorem answers_finv_one : answers (.finv 1) 1 :=
  answers_finv_iff.2 ⟨one_lt_P, by rw [fieldValue_one, mul_one]⟩

/-- R133: P - 1 stands for -1, whose square is 1. -/
theorem answers_finv_P_sub_one : answers (.finv (BitVec.ofNat 256 (P - 1))) (BitVec.ofNat 256 (P - 1)) :=
  answers_finv_iff.2 ⟨ofNat_toNat_lt_P P_sub_one_lt, by rw [fieldValue_P_sub_one, neg_one_mul, neg_neg]⟩

/-- Settles O21: each law says of two words that their product in `ZMod P` is 1. -/
theorem finvLaws : Obligations.FinvLaws := by
  refine ⟨fun a b ha hb => ?_, answers_finv_one, answers_finv_P_sub_one⟩
  obtain ⟨ia, hia⟩ := exists_answers_finv ha
  obtain ⟨ib, hib⟩ := exists_answers_finv hb
  obtain ⟨ab, hab, -⟩ := answers_fmul a b
  obtain ⟨iab, hiab, -⟩ := answers_fmul ia ib
  obtain ⟨hiaLt, hiaProduct⟩ := answers_finv_iff.1 hia
  obtain ⟨-, hibProduct⟩ := answers_finv_iff.1 hib
  obtain ⟨-, habValue⟩ := answers_fmul_iff.1 hab
  obtain ⟨hiabLt, hiabValue⟩ := answers_fmul_iff.1 hiab
  refine ⟨ia, ib, ab, iab, hia, hiaLt, answer_finv_ne_zero hia, ?involution, hib, hab, ?multiplicative, hiab, ?residuesOnly⟩
  case involution =>
    exact answers_finv_iff.2 ⟨ofNat_toNat_lt_P (canon_lt a), by rw [fieldValue_ofNat_canon, mul_comm, hiaProduct]⟩
  case multiplicative =>
    exact answers_finv_iff.2 ⟨hiabLt, by rw [habValue, hiabValue, mul_mul_mul_comm, hiaProduct, hibProduct, mul_one]⟩
  case residuesOnly => exact answers_finv_iff.2 ⟨hiaLt, by rw [fieldValue_ofNat_canon, hiaProduct]⟩

end Sys2Proof.Machine
end

section
/-! PROOFS. Several instances beside each other (60_exceptions.md R161). -/

namespace Sys2Proof.Machine

/-- The two ways a system answers: its `k`-th instance answers and is replaced by its own next state, or there is no `k`-th instance. -/
theorem systemStep_eq_next_iff {k : Nat} {sys sys' : List State} :
    systemStep k sys = .next sys' ↔
      (sys[k]? = none ∧ sys' = sys) ∨ ∃ s t, sys[k]? = some s ∧ step s = .next t ∧ sys' = sys.set k t := by
  unfold systemStep
  cases sys[k]? with
  | none => simp [eq_comm]
  | some s => cases hstep : step s <;> simp [hstep, eq_comm]

/-- Settles O48: where the `k`-th unit answers, the system's next state is the list with its `k`-th entry replaced. -/
theorem unitsShareNothing : Obligations.UnitsShareNothing := by
  intro k sys sys' h
  obtain ⟨habsent, rfl⟩ | ⟨s, t, hs, hstep, rfl⟩ := systemStep_eq_next_iff.1 h
  · exact ⟨rfl, fun _ _ => rfl, fun s hs => by simp [habsent] at hs⟩
  · refine ⟨List.length_set, fun j hj => List.getElem?_set_ne hj.symm, fun u hu => ?_⟩
    obtain rfl : s = u := Option.some.inj (hs.symm.trans hu)
    obtain ⟨hk, -⟩ := List.getElem?_eq_some_iff.1 hs
    exact ⟨t, hstep, List.getElem?_set_self hk⟩

end Sys2Proof.Machine
end

section
/-! PROOFS. Holding `rst = 1` for several edges (70_reset_and_hazards.md R173). -/

namespace Sys2Proof.Machine

@[simp] theorem resetEdge_resetEdge (s : State) : resetEdge (resetEdge s) = resetEdge s := rfl

/-- A state that a reset edge left stays as it is for as long as `rst = 1` is held and no response wire is used. -/
theorem runEdges_resetEdge {ds : List Drive} (hds : ∀ d ∈ ds, usesNothing d ∧ d.rst = true) (s : State) :
    runEdges ds (resetEdge s) = .next (resetEdge s) := by
  induction ds with
  | nil => rfl
  | cons d ds ih =>
    obtain ⟨⟨hu, hrst⟩, htail⟩ := List.forall_mem_cons.1 hds
    rw [runEdges_cons_of_next (edge_reset_of_usesNothing hu hrst _), resetEdge_resetEdge, ih htail]

/-- Settles O32: the first edge of the run is `resetEdge s`, and the others leave it as it is. -/
theorem resetIsIdempotent : Obligations.ResetIsIdempotent := by
  intro ds d s hu hrst hne hds
  obtain ⟨e, es, rfl⟩ := List.exists_cons_of_ne_nil hne
  obtain ⟨⟨hue, hrste⟩, hes⟩ := List.forall_mem_cons.1 hds
  rw [runEdges_cons_of_next (edge_reset_of_usesNothing hue hrste s), runEdges_resetEdge hes,
    edge_reset_of_usesNothing hu hrst]

end Sys2Proof.Machine
end
